-- ==== Sys2Proof/Word.lean ====
section
/-! DEFINITION. The word types of the engine and the constructor of an eight-word array.

Every word of the engine is 64 bits and unsigned (spec 00_scope.md R6, R13, R14): `+` on `Word` wraps modulo
2^64, `^^^`, `&&&`, `|||` and `~~~` are R14's XOR, AND, OR and NOT. -/

namespace Sys2Proof

/-- A byte of the message, of `BUF` or of `DG` (R50: byte size 8 bits). -/
abbrev Byte := BitVec 8

/-- A word of the engine (R6 `WORD_BITS` = 64). -/
abbrev Word := BitVec 64

/-- A command word, format `CW10` (R70: ten bits, `op` in bits 9:8, `data` in bits 7:0). -/
abbrev CmdWord := BitVec 10

/-- Eight words: a chaining value, a key, a block or the working words (R6 `NW` = 8). -/
abbrev Words := Vector Word 8

/-- The 64 bytes of a block as a value, byte 0 first (R6 `BLOCK_BYTES` = 64). It is a transient operand of a
micro-operation (R33, R130), never a field of the state. -/
abbrev Block := Fin 64 → Byte

/-- The eight words whose word `i` is `f i`. -/
def words8 (f : Fin 8 → Word) : Words := #v[f 0, f 1, f 2, f 3, f 4, f 5, f 6, f 7]

end Sys2Proof
end

