-- ==== Sys2Proof/Config.lean ====
section
/-! DEFINITION. The configuration record: every parameter the spec names and does not fix (00_scope.md R8,
92_eei_decisions.md "Open parameters in one list") and the two printed constant tables (R6 `C_PARITY`, R7 `ROT`),
carried beside them so that the alternative configuration of 93_implementation_defined.md GK5 is one more value of
the same type. The values this hardware has stand in Sys2Proof/Machine/Constants.lean.

Constants are not state (10_state.md R34). `TEXT_ENCODING` (D18) needs no field: the caller supplies the encoded
bytes (R185). `PORT_BINDING` (D22) needs none: no rule depends on it (R60). -/

namespace Sys2Proof

/-- The parameters of R8 and the constants of R6 and R7. Every function of the engine takes one, so that a
statement can quantify over it. -/
structure Cfg where
  /-- `IV[0..7]`, the initial chaining value (R8, D7). -/
  iv : Words
  /-- `T1_FINAL`, the flag "set only for the last block of a phase" (R8, D8). -/
  t1Final : Word
  /-- `T1_FIRST`, the flag "set only for the first block of a phase" (R8, D8). -/
  t1First : Word
  /-- `T1_TYPE_MSG`, the block-type tag MESSAGE (R8, D8). -/
  t1TypeMsg : Word
  /-- `T1_TYPE_OUT`, the block-type tag OUTPUT (R8, D8). -/
  t1TypeOut : Word
  /-- `PI[0..7]`, the word permutation of a round: new word `i` is old word `PI[i]` (R8, R108, D9). -/
  pi : Vector (Fin 8) 8
  /-- `ROT[d][j]`: rotation set `d`, mix `j` (R7). -/
  rot : Vector (Vector Nat 4) 8
  /-- `C_PARITY`, XORed into the key parity word (R6, R101). -/
  cParity : Word
  /-- `BOOL_TRUE` of the host layer (R8, R182, D17). -/
  boolTrue : Byte
  /-- `BOOL_FALSE` of the host layer (R8, R182, D17). -/
  boolFalse : Byte
  deriving DecidableEq, Repr

end Sys2Proof
end

