-- ==== Sys2Proof/Syntax.lean ====
section
/-! DEFINITION. The commands of the engine, one constructor per row of spec/opcode_table.json. -/

namespace Sys2Proof

/-- A command of the command port (30_encoding.md R71). -/
inductive Instr where
  /-- `INIT`, the source's construct() (42_stream_buffer.md R140). Its `data` field is ignored (R73 b). -/
  | init
  /-- `ABSORB.B #d`, ingestion of the one byte `d` (R141); `d` is the `data` field as given (R72). -/
  | absorbB (d : Byte)
  /-- `DIGEST`, the source's digest() (43_finalize_output.md R163). Its `data` field is ignored (R73 b). -/
  | digest
  /-- Any command word with `op = 11`, which raises `IllegalCommand` (60_exceptions.md R202). -/
  | reserved
  deriving DecidableEq, Repr

end Sys2Proof
end

