-- ==== Sys2Proof/WellFormed.lean ====
section
/-! DEFINITION. Which terms of the syntax are well formed, and which configurations meet the constraints that the
source imposes on its open values (00_scope.md R8). The range checks on the host layer's typed operands stand with
their type in Sys2Proof/Machine/HostLayer.lean. -/

namespace Sys2Proof

/-- A command is well formed. The only operand of any command is an unsigned byte 0..255 (R72), and its type
already says so, so that no check is left to fail. -/
def Instr.wf : Instr → Bool
  | .init => true
  | .absorbB _ => true
  | .digest => true
  | .reserved => true

/-- `w` has exactly one bit set. -/
def isSingleBit (w : Word) : Bool := w != 0 && (w &&& (w - 1)) == 0

/-- "`T1_FINAL` and `T1_FIRST` are distinct single flag bits" (R8). -/
def Cfg.flagsWf (c : Cfg) : Bool := isSingleBit c.t1Final && isSingleBit c.t1First && c.t1Final != c.t1First

/-- "the two type tags differ; the type tag does not overlap the two flag bits" (R8). -/
def Cfg.tagsWf (c : Cfg) : Bool :=
  c.t1TypeMsg != c.t1TypeOut && (c.t1TypeMsg &&& (c.t1Final ||| c.t1First)) == 0
    && (c.t1TypeOut &&& (c.t1Final ||| c.t1First)) == 0

/-- "`PI` has order 4" (R8): four applications are the identity and two are not. It is then a permutation. -/
def Cfg.piWf (c : Cfg) : Bool :=
  (List.finRange 8).all (fun i => c.pi[c.pi[c.pi[c.pi[i]]]] == i)
    && (List.finRange 8).any (fun i => c.pi[c.pi[i]] != i)

/-- "Every entry is in 1..63" (R7). -/
def Cfg.rotWf (c : Cfg) : Bool := c.rot.toList.all fun set => set.toList.all fun n => 1 ≤ n && n ≤ 63

/-- The constraints the source imposes on the open values (R8) and the range of the rotation table (R7). -/
def Cfg.wf (c : Cfg) : Bool := c.flagsWf && c.tagsWf && c.piWf && c.rotWf

end Sys2Proof
end

