-- ==== Sys2Proof/Decode.lean ====
section
/-! DEFINITION. The opcode map, the decoder and the encoder of the command word `CW10` (30_encoding.md R70 to R73).

The decoder of a ten-bit word is total and refuses nothing, because all four values of `op` are assigned (R71). The
only thing it can be given that is no command word is a number of more than ten bits; `decodeBits` refuses that by
name (DESIGN CHOICE, log entry 7). -/

namespace Sys2Proof

/-- Bits 9:8 of a command word (R70). -/
def opField (w : CmdWord) : BitVec 2 := w.extractLsb' 8 2

/-- Bits 7:0 of a command word (R70), the unsigned byte 0..255 of R72. -/
def dataField (w : CmdWord) : Byte := w.extractLsb' 0 8

/-- A row of the opcode map (R71). -/
structure OpcodeRow where
  /-- The row's mnemonic in spec/opcode_table.json. -/
  mnemonic : String
  /-- The row's match. -/
  matchBits : CmdWord
  /-- The row's mask. -/
  mask : CmdWord
  deriving DecidableEq, Repr

/-- The opcode map of R71, in the table's order. -/
def opcodeRows : List OpcodeRow :=
  [ { mnemonic := "INIT", matchBits := 0x000, mask := 0x300 },
    { mnemonic := "ABSORB.B", matchBits := 0x100, mask := 0x300 },
    { mnemonic := "DIGEST", matchBits := 0x200, mask := 0x300 },
    { mnemonic := "RESERVED", matchBits := 0x300, mask := 0x300 } ]

/-- "A command word `w` selects the row with `(w AND mask) = match`" (R71). -/
def OpcodeRow.selects (r : OpcodeRow) (w : CmdWord) : Bool := (w &&& r.mask) == r.matchBits

/-- The mnemonic of a command in spec/opcode_table.json. -/
def Instr.mnemonic : Instr → String
  | .init => "INIT"
  | .absorbB _ => "ABSORB.B"
  | .digest => "DIGEST"
  | .reserved => "RESERVED"

/-- The opcode of a command (R71). -/
def Instr.opcode : Instr → BitVec 2
  | .init => 0
  | .absorbB _ => 1
  | .digest => 2
  | .reserved => 3

/-- The command a ten-bit word stands for: its `op` field chooses the row (R71), and `data` is read by `ABSORB.B`
only (R72, R73). -/
def decode (w : CmdWord) : Instr :=
  if opField w = 0 then .init
  else if opField w = 1 then .absorbB (dataField w)
  else if opField w = 2 then .digest
  else .reserved

/-- Why a number is no command word. -/
inductive DecodeError where
  /-- The number has a bit at place 10 or above: the command word has one length, ten bits (R70). -/
  | widerThanCommandWord
  deriving DecidableEq, Repr

/-- The decoder on any number of bits: bit 0 is the least significant bit of the command word. -/
def decodeBits (n : Nat) : Except DecodeError Instr :=
  if n < 2 ^ 10 then .ok (decode (BitVec.ofNat 10 n)) else .error .widerThanCommandWord

/-- The instruction the decoder reads from a word of the opcode table of `nbits` bits (the bits above `nbits` are 0);
`none` where the decoder refuses. -/
def decodeTableWord (nbits w : Nat) : Option Instr :=
  match decodeBits (w % 2 ^ nbits) with
  | .ok i => some i
  | .error _ => none

/-- The command word an assembler emits (R73: "The canonical encodings, which an assembler must emit, have
`data = 0`"; R71: `ABSORB.B #d` is `0x100 + d`). The spec names no canonical word of the reserved row; the model
takes `0x300` (DESIGN CHOICE, log entry 5). -/
def encode : Instr → CmdWord
  | .init => 0x000
  | .absorbB d => (1 : BitVec 2) ++ d
  | .digest => 0x200
  | .reserved => 0x300

end Sys2Proof
end

