-- ==== Sys2Proof/Machine/Constants.lean ====
section
/-! DEFINITION. The constants of this hardware: the fixed parameters of 00_scope.md R6 and the configuration record
with the printed tables (R6, R7) and the defaults of R8. "The source never mutates them" (R6, R34). -/

namespace Sys2Proof

/-- Rounds of one permutation call (R6 `ROUNDS`). -/
def roundCount : Nat := 72

/-- A subkey is injected after every fourth round (R6 `INJECT_PERIOD`). -/
def injectPeriod : Nat := 4

/-- The counter of the output block (R6 `OUT_COUNTER`). -/
def outCounter : Word := 0

/-- The byte-count-add of the output block (R6 `OUT_COUNT_ADD`). -/
def outCountAdd : Nat := 8

/-- `IV[0..7]`, the default of R8 (D7, GK4; PRESUMED by the spec, log entry 1). -/
def ivDefault : Words :=
  #v[0xA8D47980544A6E32, 0x847511533E9B1A8A, 0x6FAEE870D8E81A00, 0x58B0D9D6CB557F92,
     0x9BBC0051DAC1D4E9, 0xB744E2B1D189E7CA, 0x979350FA709C5EF3, 0x0350125A92067BCD]

/-- `ROT[d][j]` as printed (R7). -/
def rotTable : Vector (Vector Nat 4) 8 :=
  #v[#v[38, 30, 50, 53], #v[48, 20, 43, 31], #v[34, 14, 15, 27], #v[26, 12, 58, 7],
     #v[33, 49, 8, 42], #v[39, 27, 41, 14], #v[29, 26, 11, 9], #v[33, 51, 39, 35]]

/-- `PI[0..7]`, the default of R8 and R108 (D9, GK3; PRESUMED by the spec, log entry 1). -/
def piDefault : Vector (Fin 8) 8 := #v[2, 1, 4, 7, 6, 5, 0, 3]

/-- The configuration of this hardware: the printed constants (R6, R7) and the defaults of R8. -/
def Config.sk512 : Cfg where
  iv := ivDefault
  t1Final := 0x8000000000000000
  t1First := 0x4000000000000000
  t1TypeMsg := 0x3000000000000000
  t1TypeOut := 0x3F00000000000000
  pi := piDefault
  rot := rotTable
  cParity := 0x5555555555555555
  boolTrue := 0x01
  boolFalse := 0x00

end Sys2Proof
end

