-- ==== Sys2Proof/Machine/State.lean ====
section
/-! DEFINITION. The state of the machine as plain data: the engine's architectural record (10_state.md R20), the
words the host has still to present at the command port (30_encoding.md R70) and the responses it has had (R75, R242);
the reasons a step could stop; the state after reset (R38, R230). -/

namespace Sys2Proof.Machine

/-- A 64-byte space (20_memory.md R50) as a list of (address, byte) pairs in one canonical form: addresses strictly
rising and below 64, and no entry equal to what an unlisted address reads as (`Memory.wf` in Ops.lean). -/
abbrev Memory := List Host.Cell

/-- The two synchronous faults of the engine (60_exceptions.md R200). Neither stops the machine: a faulting command
leaves the fault record and a response, and "the next command executes normally" (R203). -/
inductive FaultKind where
  /-- Code 1: `ABSORB.B` executed while `FIN = 1` (R201). -/
  | useAfterFinalize
  /-- Code 2: a command word with `op = 11` (R202). -/
  | illegalCommand
  deriving DecidableEq, Repr

/-- The response record of a command (30_encoding.md R75). -/
structure Response where
  /-- The fault code of this command, 0 when it did what its rule says. -/
  fault : BitVec 2
  /-- The value of `ERR` after the command. -/
  err : Bool
  /-- The value of `ERRCODE` after the command. -/
  errcode : BitVec 2
  /-- 0 or 64 bytes: `DG[0..63]` for `DIGEST`, `DG[0]` first; empty for every other response. -/
  data : List Byte
  deriving DecidableEq, Repr

/-- The complete architectural state of one engine (R20). -/
structure Engine where
  /-- `H[0..7]`, the chaining value (R21). -/
  h : Words
  /-- `T[0]`, the position counter (R22). -/
  t0 : Word
  /-- `T[1]`, the flags FINAL and FIRST and the block type (R23). -/
  t1 : Word
  /-- `BUF[0..63]`, the pending-block buffer (R26). -/
  buf : Memory
  /-- `BCNT`, the number of valid bytes in `BUF`, 0..64 (R26, R27; DEDUCED, log entry 13). -/
  bcnt : Fin 65
  /-- `DG[0..63]`, the cached digest (R28). -/
  dg : Memory
  /-- `FIN`, the finalised flag (R29). -/
  fin : Bool
  /-- `ERR`, the sticky fault flag (R30). -/
  err : Bool
  /-- `ERRCODE`, the code of the first fault since `INIT` (R30). -/
  errcode : BitVec 2
  deriving DecidableEq, Repr

/-- The machine: the engine and the two directions of its command port. -/
structure State where
  /-- The engine's architectural state (R20). -/
  engine : Engine
  /-- The command words the host has still to present, the next one first (R70, R242; log entry 3). -/
  port : List CmdWord
  /-- The responses the host has had, the first one first (R75, R242; log entry 3). -/
  responses : List Response
  deriving DecidableEq, Repr

/-- The reasons for which the machine stops with a fault: none. The faults of the spec are taken, not stops (R203),
and "the engine has no halt command, no stop state and no state in which it refuses commands" (R242; DEDUCED, log
entry 12). -/
inductive Fault where
  deriving DecidableEq, Repr

/-- The reasons for which an instruction has no meaning. -/
inductive Refusal where
  /-- Raised by an arm of `exec` whose instruction has no meaning yet, with its mnemonic; no arm raises it in this
  model. Safe: the machine stops where the hardware goes on. -/
  | notModelled (mnemonic : String)
  deriving DecidableEq, Repr

/-- The engine after hardware reset, which "has exactly the effect of the `INIT` command" (R230), so the values of
R38. `BUF` and `DG` are unspecified there; the model lists no byte in them (DESIGN CHOICE, log entry 2). -/
def Engine.reset : Engine where
  h := Config.sk512.iv
  t0 := 0x0000000000000000
  t1 := 0x7000000000000000
  buf := []
  bcnt := 0
  dg := []
  fin := false
  err := false
  errcode := 0

/-- The machine right after reset: no command word presented and no response given ("without a response", R230; log entry 3). -/
def State.reset : State where
  engine := Engine.reset
  port := []
  responses := []

end Sys2Proof.Machine
end

