-- ==== Sys2Proof/Machine/Flags.lean ====
section
/-! DEFINITION. The flags of the engine. It has four, `T1.FIRST`, `T1.FINAL`, `FIN` and `ERR`, and no condition codes:
no arithmetic operation sets a flag (10_state.md R32). The position of the bits of T1 is the configuration's (R8, R23).
The fault codes (60_exceptions.md R200) and the lifecycle phase the flags tell (R36) stand here too. -/

namespace Sys2Proof.Machine

/-- `T1.FIRST` (R23). -/
def firstFlag (c : Cfg) (t1 : Word) : Bool := (t1 &&& c.t1First) != 0

/-- `T1.FINAL` (R23). -/
def finalFlag (c : Cfg) (t1 : Word) : Bool := (t1 &&& c.t1Final) != 0

/-- `T1.TYPE`, bits 61:56 of T1 in this spec's layout (R23). -/
def typeField (t1 : Word) : BitVec 6 := t1.extractLsb' 56 6

/-- `T[1] AND NOT T1_FIRST`, a no-op if already clear (41_ubi_block.md R135). -/
def clearFirst (c : Cfg) (t1 : Word) : Word := t1 &&& ~~~c.t1First

/-- `T[1] OR T1_FINAL` (43_finalize_output.md R160). -/
def setFinal (c : Cfg) (t1 : Word) : Word := t1 ||| c.t1Final

/-- `T1_FIRST OR T1_TYPE_MSG`, what `INIT` writes to T1 (42_stream_buffer.md R140). -/
def messageTweak (c : Cfg) : Word := c.t1First ||| c.t1TypeMsg

/-- `T1_TYPE_OUT OR T1_FIRST OR T1_FINAL`, what `FINALIZE` step 2 writes to T1 (R161). -/
def outputTweak (c : Cfg) : Word := c.t1TypeOut ||| c.t1First ||| c.t1Final

/-- The code of a fault (R200); 0 means no fault and 3 is never produced. -/
def FaultKind.code : FaultKind → BitVec 2
  | .useAfterFinalize => 1
  | .illegalCommand => 2

/-- The code of no fault (R200). -/
def noFault : BitVec 2 := 0

/-- The lifecycle phases (R36). -/
inductive Phase where
  /-- `FIN = 0`, `T1.FIRST = 1`: no block processed. -/
  | fresh
  /-- `FIN = 0`, `T1.FIRST = 0`: at least one block processed. -/
  | streaming
  /-- `FIN = 1`. -/
  | finalised
  deriving DecidableEq, Repr

/-- The phase of the session, told by the pair (`FIN`, `T1.FIRST`) (R31, R36). -/
def Engine.phase (c : Cfg) (e : Engine) : Phase :=
  if e.fin then .finalised else if firstFlag c e.t1 then .fresh else .streaming

end Sys2Proof.Machine
end

