-- ==== Sys2Proof/Machine/Operands.lean ====
section
/-! DEFINITION. The word operators and the conversions between bytes and words (00_scope.md R14, R15; 20_memory.md
R52, R53). Data byte order is little-endian everywhere (R52, R54). The operand of `ABSORB.B` needs no assembly beyond
its field (R72, `dataField` of Sys2Proof/Decode.lean): there are no register operands and no addressing modes. -/

namespace Sys2Proof.Machine

/-- `rotl64(a, n) = ((a * 2^n) mod 2^64) OR (a div 2^(64-n))`, called with 0 < n < 64 only (R14, R7). -/
def rotl64 (a : Word) (n : Nat) : Word := (a <<< n) ||| (a >>> (64 - n))

/-- Byte `k` of a word: `w[8k+7 : 8k]`, the byte `k` of `BYTES_LE64(w)` (R15). -/
def byteOf (w : Word) (k : Fin 8) : Byte := w.extractLsb' (8 * k.val) 8

/-- `LE64(b)`: `b[0]` is the least significant byte (R15). -/
def le64 (b : Fin 8 → Byte) : Word := b 7 ++ b 6 ++ b 5 ++ b 4 ++ b 3 ++ b 2 ++ b 1 ++ b 0

/-- The address of byte `k` of the 8-byte word `i` of a 64-byte array, `8i + k`. Every word access is at a multiple
of 8 (20_memory.md R56). -/
def byteAddr (i k : Fin 8) : Fin 64 := ⟨8 * i.val + k.val, by omega⟩

/-- The word a byte address lies in, `floor(a / 8)` (R55). -/
def wordOfAddr (a : Fin 64) : Fin 8 := ⟨a.val / 8, by omega⟩

/-- The place of a byte address within its word, `a mod 8` (R55). -/
def byteOfAddr (a : Fin 64) : Fin 8 := ⟨a.val % 8, by omega⟩

/-- `BLOCK_TO_WORDS(B)`: `W[i] = LE64(B[8i .. 8i+7])` (R15, R132). -/
def blockToWords (b : Block) : Words := words8 fun i => le64 fun k => b (byteAddr i k)

/-- `WORDS_TO_BYTES(W)`: byte `8i + k` is `W[i][8k+7 : 8k]` (R15, R53). -/
def wordsToBytes (w : Words) : Block := fun a => byteOf w[wordOfAddr a] (byteOfAddr a)

/-- A block as the list of its 64 bytes, byte 0 first. -/
def blockBytes (b : Block) : List Byte := (List.finRange 64).map b

end Sys2Proof.Machine
end

