-- ==== Sys2Proof/Machine/Ops.lean ====
section
/-! DEFINITION. The shared operations: reads and writes of the two byte spaces (00_scope.md R16 `MemRead`, `MemWrite`;
20_memory.md R50), responses and faults (R75, R203), and the two directions of the command port (R70).

An address of a byte space is a `Fin 64`: no other address exists, and "no access is ever out of range" (R50). -/

namespace Sys2Proof.Machine

/-! ## The byte spaces -/

/-- What an unlisted address reads as. The spec leaves the bytes that nothing has written unspecified (R26, R28, R38)
and no rule reads them; the model takes zero (DESIGN CHOICE, log entry 2). -/
def Memory.unlisted : Byte := 0

/-- The byte listed at address `a`, or `unlisted`. -/
def Memory.lookup : Memory → Nat → Byte
  | [], _ => Memory.unlisted
  | (k, v) :: rest, a => if k = a then v else Memory.lookup rest a

/-- The list without its entries at address `a`. -/
def Memory.erase : Memory → Nat → Memory
  | [], _ => []
  | (k, v) :: rest, a => if k = a then Memory.erase rest a else (k, v) :: Memory.erase rest a

/-- The list with the entry `(a, b)` added at its place in the rising order. -/
def Memory.place : Memory → Nat → Byte → Memory
  | [], a, b => [(a, b)]
  | (k, v) :: rest, a, b => if a < k then (a, b) :: (k, v) :: rest else (k, v) :: Memory.place rest a b

/-- The list with address `a` holding `b`, in canonical form: an entry equal to `unlisted` is removed. -/
def Memory.insert (m : Memory) (a : Nat) (b : Byte) : Memory :=
  if b = Memory.unlisted then m.erase a else Memory.place (m.erase a) a b

/-- The canonical form from address `lo` on. -/
def Memory.wfFrom : Nat → Memory → Bool
  | _, [] => true
  | lo, (k, v) :: rest => decide (lo ≤ k) && decide (k < 64) && (v != Memory.unlisted) && Memory.wfFrom (k + 1) rest

/-- The canonical form: addresses strictly rising and below 64, no entry equal to `unlisted`. -/
def Memory.wf (m : Memory) : Bool := Memory.wfFrom 0 m

/-- `MemRead(space, a, 1)` (R16). -/
def Memory.read (m : Memory) (a : Fin 64) : Byte := Memory.lookup m a.val

/-- `MemWrite(space, a, 1, b)` (R16). -/
def Memory.write (m : Memory) (a : Fin 64) (b : Byte) : Memory := Memory.insert m a.val b

/-- `MemRead(space, 8i, 8)`: eight bytes as a little-endian number (R16, R57). -/
def Memory.readWord (m : Memory) (i : Fin 8) : Word := le64 fun k => m.read (byteAddr i k)

/-- `MemWrite(space, 8i, 8, v)`: eight bytes, the least significant one at the lowest address (R16). -/
def Memory.writeWord (m : Memory) (i : Fin 8) (v : Word) : Memory :=
  (List.finRange 8).foldl (fun m k => m.write (byteAddr i k) (byteOf v k)) m

/-- `MemWrite(space, 8i, 8, w[i])` for i = 0..7 (R162). -/
def Memory.writeWords (m : Memory) (w : Words) : Memory :=
  (List.finRange 8).foldl (fun m i => m.writeWord i w[i]) m

/-- `MemWrite(space, a, 1, 0x00)` for a = n..63, nothing when n = 64 (R160). -/
def Memory.zeroFrom (m : Memory) (n : Nat) : Memory :=
  (List.finRange 64).foldl (fun m a => if n ≤ a.val then m.write a 0x00 else m) m

/-- All 64 bytes of a space as a block. -/
def Memory.block (m : Memory) : Block := fun a => m.read a

/-! ## Responses and faults -/

/-- `respond(fault, data)`: the response record with the values of `ERR` and `ERRCODE` after the command (R75). -/
def Engine.respond (e : Engine) (fault : BitVec 2) (data : List Byte) : Response where
  fault := fault
  err := e.err
  errcode := e.errcode
  data := data

/-- The fault record after a fault: the first fault of a session sets `ERR` and `ERRCODE`, a later one leaves them
(R30, R203). -/
def Engine.recordFault (k : FaultKind) (e : Engine) : Engine :=
  if e.err then e else { e with err := true, errcode := k.code }

/-- Taking a fault: "A faulting command does exactly this and nothing else" (R203). There is no vector, no saved
context and no mode to change, and no return from a fault (R204): only `INIT` and reset clear the record. -/
def Engine.raise (k : FaultKind) (e : Engine) : Engine × Response :=
  let e' := e.recordFault k
  (e', e'.respond k.code [])

/-! ## The command port -/

/-- The host presents the command word `w` next (R70, R235). -/
def State.present (s : State) (w : CmdWord) : State := { s with port := w :: s.port }

/-- The engine takes the presented command word; `none` when the host presents none (R70). -/
def State.takeCommand (s : State) : Option (CmdWord × State) :=
  match s.port with
  | [] => none
  | w :: rest => some (w, { s with port := rest })

/-- A command has run to completion: its engine state stands, and exactly one response goes to the host (R70, R75). -/
def State.complete (s : State) (r : Engine × Response) : State :=
  { s with engine := r.1, responses := s.responses ++ [r.2] }

end Sys2Proof.Machine
end

