-- ==== Sys2Proof/Machine/Construct.lean ====
section
/-! DEFINITION. `INIT` (42_stream_buffer.md R140). -/

namespace Sys2Proof.Machine

/-- The engine state `INIT` leaves: the values of 10_state.md R38; `BUF` and `DG` are not written (R140). -/
def Engine.construct (c : Cfg) (e : Engine) : Engine :=
  { e with
    h := c.iv
    t0 := 0x0000000000000000
    t1 := messageTweak c
    bcnt := 0
    fin := false
    err := false
    errcode := 0 }

/-- `INIT` as a function of the engine: accepted in every state, it never faults (R140). -/
def Engine.initCmd (c : Cfg) (e : Engine) : Engine × Response :=
  let e' := e.construct c
  (e', e'.respond noFault [])

/-- Hardware reset of a running machine, between two commands: the effect of `INIT` "without a response" (R230; no reset
falls inside a command, R231, log entry 8). -/
def State.hardReset (s : State) : State := { s with engine := s.engine.construct Config.sk512 }

/-- `INIT` (R140). -/
def execInit (s : State) : Host.Outcome State Fault Refusal :=
  .next (s.complete (s.engine.initCmd Config.sk512))

end Sys2Proof.Machine
end

