-- ==== Sys2Proof/Machine/Threefish.lean ====
section
/-! DEFINITION. The permutation core, Threefish-512 (40_threefish512.md R100 to R114): pure functions over word arrays.
They have no encoding (R74), write no flag and cannot fault. The working words, the extended key and the extended tweak
are values inside one call, not state (10_state.md R33). -/

namespace Sys2Proof.Machine

/-- `KS_EXTEND(K)`: the eight key words and the parity word (R101). -/
def ksExtend (c : Cfg) (k : Words) : Vector Word 9 :=
  #v[k[0], k[1], k[2], k[3], k[4], k[5], k[6], k[7],
     c.cParity ^^^ k[0] ^^^ k[1] ^^^ k[2] ^^^ k[3] ^^^ k[4] ^^^ k[5] ^^^ k[6] ^^^ k[7]]

/-- `TS_EXTEND(TW)`: "T2 = T0 XOR T1", computed fresh before every call and not stored (R102, R25). -/
def tsExtend (t0 t1 : Word) : Vector Word 3 := #v[t0, t1, t0 ^^^ t1]

/-- `KS[n mod 9]`, the cyclic indexing of the extended key (R101, R103). -/
def ksAt (ks : Vector Word 9) (n : Nat) : Word := ks[n % 9]'(Nat.mod_lt _ (by decide))

/-- `TS[n mod 3]`, the cyclic indexing of the extended tweak (R102, R103). -/
def tsAt (ts : Vector Word 3) (n : Nat) : Word := ts[n % 3]'(Nat.mod_lt _ (by decide))

/-- `SUBKEY(KS, TS, s)` (R103). -/
def subkey (ks : Vector Word 9) (ts : Vector Word 3) (s : Nat) : Words :=
  #v[ksAt ks s, ksAt ks (s + 1), ksAt ks (s + 2), ksAt ks (s + 3), ksAt ks (s + 4),
     ksAt ks (s + 5) + tsAt ts s,
     ksAt ks (s + 6) + tsAt ts (s + 1),
     ksAt ks (s + 7) + BitVec.ofNat 64 s]

/-- `INJECT(X, KS, TS, s)`: eight independent wrapping additions (R104). -/
def inject (x : Words) (ks : Vector Word 9) (ts : Vector Word 3) (s : Nat) : Words :=
  words8 fun i => x[i] + (subkey ks ts s)[i]

/-- `MIX(a, b, R)`: the rotated old b is XORed with the new a (R106). -/
def mix (a b : Word) (r : Nat) : Word × Word :=
  let a' := a + b
  (a', rotl64 b r ^^^ a')

/-- The rotation set of round r, `ROT[r mod 8]` (R107, 90_conflicts.md C1). -/
def rotSet (c : Cfg) (r : Nat) : Vector Nat 4 := c.rot[r % 8]'(Nat.mod_lt _ (by decide))

/-- The four mixes of a round on the disjoint pairs (2j, 2j+1) (R109). -/
def mixes (c : Cfg) (x : Words) (r : Nat) : Words :=
  let rot := rotSet c r
  let m0 := mix x[0] x[1] rot[0]
  let m1 := mix x[2] x[3] rot[1]
  let m2 := mix x[4] x[5] rot[2]
  let m3 := mix x[6] x[7] rot[3]
  #v[m0.1, m0.2, m1.1, m1.2, m2.1, m2.2, m3.1, m3.2]

/-- The word permutation: `X'[i] = Y[PI[i]]` (R108). -/
def permute (c : Cfg) (y : Words) : Words := words8 fun i => y[c.pi[i]]

/-- `ROUND(X, r)`: the four mixes, then the word permutation (R109). -/
def cipherRound (c : Cfg) (x : Words) (r : Nat) : Words := permute c (mixes c x r)

/-- Round r of a call with the periodic injection that follows it: after round r with `r mod 4 = 3` the subkey
`floor(r / 4) + 1` is injected (R111, 90_conflicts.md C2). -/
def roundInject (c : Cfg) (ks : Vector Word 9) (ts : Vector Word 3) (x : Words) (r : Nat) : Words :=
  let y := cipherRound c x r
  if r % injectPeriod = 3 then inject y ks ts (r / injectPeriod + 1) else y

/-- `E512(K, TW, P)`: the initial injection (R105), then 72 rounds with the periodic injections (R112). -/
def e512 (c : Cfg) (k : Words) (t0 t1 : Word) (p : Words) : Words :=
  let ks := ksExtend c k
  let ts := tsExtend t0 t1
  (List.range roundCount).foldl (roundInject c ks ts) (inject p ks ts 0)

end Sys2Proof.Machine
end

