-- ==== Sys2Proof/Machine/Ubi.lean ====
section
/-! DEFINITION. The block processor (41_ubi_block.md R130 to R137): the only caller of the permutation core and, but
for `INIT`, the only writer of `H`. It has no encoding (R74) and cannot fault. -/

namespace Sys2Proof.Machine

/-- The feed-forward, `C[i] XOR W[i]` (R134). -/
def feedForward (x w : Words) : Words := words8 fun i => x[i] ^^^ w[i]

/-- `UBI_BLOCK(B, count)` (R130). The position add comes before the cipher call, so that the call sees the new `T[0]`
(R131, 90_conflicts.md C3); FIRST is cleared after it (R135). -/
def Engine.ubiBlock (c : Cfg) (b : Block) (count : Nat) (e : Engine) : Engine :=
  let t0 := e.t0 + BitVec.ofNat 64 count
  let w := blockToWords b
  let x := e512 c e.h t0 e.t1 w
  { e with h := feedForward x w, t0 := t0, t1 := clearFirst c e.t1 }

end Sys2Proof.Machine
end

