-- ==== Sys2Proof/Machine/Finalize.lean ====
section
/-! DEFINITION. Finalisation, the output transform and `DIGEST` (43_finalize_output.md R160 to R166). -/

namespace Sys2Proof.Machine

/-- `FINALIZE` step 1, close the message chain: FINAL is set, the buffer is padded with zeros and processed with the
count before padding (R160). -/
def Engine.closeChain (c : Cfg) (e : Engine) : Engine :=
  let padded := { e with t1 := setFinal c e.t1, buf := e.buf.zeroFrom e.bcnt.val }
  padded.ubiBlock c padded.buf.block e.bcnt.val

/-- The counter block: a little-endian 64-bit counter in its first 8 bytes, then 56 zero bytes (R161, R53). It is a
value and is not written to `BUF` (R161; DESIGN CHOICE D16 of the spec, log entry 6). -/
def counterBlock : Block := fun a => if a.val < 8 then byteOf outCounter (byteOfAddr a) else 0x00

/-- `FINALIZE` step 2, the output transform (R161). -/
def Engine.outputTransform (c : Cfg) (e : Engine) : Engine :=
  { e with t0 := 0x0000000000000000, t1 := outputTweak c }.ubiBlock c counterBlock outCountAdd

/-- `FINALIZE` step 3, cache the digest and set the finalised flag (R162). -/
def Engine.cacheDigest (e : Engine) : Engine := { e with dg := e.dg.writeWords e.h, fin := true }

/-- `FINALIZE` (R160, R161, R162); it runs while `FIN = 0` only (R163). -/
def Engine.finalize (c : Cfg) (e : Engine) : Engine := ((e.closeChain c).outputTransform c).cacheDigest

/-- The engine state `DIGEST` leaves (R163). -/
def Engine.digested (c : Cfg) (e : Engine) : Engine := if e.fin then e else e.finalize c

/-- `DIGEST` as a function of the engine: it never faults and is served normally while `ERR = 1` (R163). -/
def Engine.digestCmd (c : Cfg) (e : Engine) : Engine × Response :=
  let e' := e.digested c
  (e', e'.respond noFault (blockBytes e'.dg.block))

/-- `DIGEST` (R163). -/
def execDigest (s : State) : Host.Outcome State Fault Refusal :=
  .next (s.complete (s.engine.digestCmd Config.sk512))

end Sys2Proof.Machine
end

