-- ==== Sys2Proof/Machine/Reserved.lean ====
section
/-! DEFINITION. The reserved opcode (60_exceptions.md R202): every word of the row raises `IllegalCommand`. -/

namespace Sys2Proof.Machine

/-- The reserved opcode as a function of the engine: the fault record and nothing else changes, in any state (R202). -/
def Engine.reservedCmd (e : Engine) : Engine × Response := e.raise .illegalCommand

/-- A command word with `op = 11` (R202). -/
def execReserved (s : State) : Host.Outcome State Fault Refusal := .next (s.complete s.engine.reservedCmd)

end Sys2Proof.Machine
end

