-- ==== Sys2Proof/Machine/Stream.lean ====
section
/-! DEFINITION. The streaming buffer: `ABSORB.B` (42_stream_buffer.md R141, R142, R147) and the chunk-level form of the
same function (R143). -/

namespace Sys2Proof.Machine

/-- A full block that waits in the buffer is processed now that one more byte is known to follow: the first part of
`ABSORB.B`. The test of `BCNT = 64` stands before the store, not after it (R141, R142). -/
def Engine.makeRoom (c : Cfg) (e : Engine) : Engine :=
  if e.bcnt.val = 64 then { e.ubiBlock c e.buf.block 64 with bcnt := 0 } else e

/-- The address `ABSORB.B` stores its byte to: `BCNT` after `makeRoom`, so 0 when `BCNT` was 64. (`BCNT <= 63` at the
store, R50: the remainder is `BCNT` itself; DEDUCED, log entry 13.) -/
def Engine.storeAddr (e : Engine) : Fin 64 := ⟨e.bcnt.val % 64, Nat.mod_lt _ (by decide)⟩

/-- `MemWrite(BUF, BCNT, 1, d); BCNT <- BCNT + 1` (R141). -/
def Engine.storeByte (d : Byte) (e : Engine) : Engine :=
  { e with buf := e.buf.write e.storeAddr d, bcnt := ⟨e.storeAddr.val + 1, by omega⟩ }

/-- The engine state `ABSORB.B #d` leaves while `FIN = 0` (R141). -/
def Engine.absorb (c : Cfg) (d : Byte) (e : Engine) : Engine := (e.makeRoom c).storeByte d

/-- `ABSORB.B #d` as a function of the engine. The check of `FIN` is the first thing it does (R141, R201). -/
def Engine.absorbCmd (c : Cfg) (d : Byte) (e : Engine) : Engine × Response :=
  if e.fin then e.raise .useAfterFinalize
  else
    let e' := e.absorb c d
    (e', e'.respond noFault [])

/-- `ABSORB.B #d` (R141). -/
def execAbsorbB (d : Byte) (s : State) : Host.Outcome State Fault Refusal :=
  .next (s.complete (s.engine.absorbCmd Config.sk512 d))

/-! ## The chunk-level view (R143)

The source's own wording of the buffer. No command runs it: a chunk is "nothing but a run of `ABSORB.B` commands"
(R145). -/

/-- The first 64 bytes of a chunk as a block. -/
def chunkBlock (ch : List Byte) : Block := fun a => ch.getD a.val 0

/-- `BUF[BCNT .. BCNT+n-1] <- c[0 .. n-1]; BCNT <- BCNT + n`, for chunks that fit (R143). -/
def Engine.appendChunk : List Byte → Engine → Engine
  | [], e => e
  | d :: ch, e => Engine.appendChunk ch (e.storeByte d)

/-- `while n > 64: UBI_BLOCK(c[0..63], 64); c <- c[64 ..]; n <- n - 64` (R143): the engine and the bytes kept back.
`fuel` bounds the iterations; the length of the chunk is enough. -/
def Engine.chunkBlocks (c : Cfg) : Nat → List Byte → Engine → Engine × List Byte
  | 0, ch, e => (e, ch)
  | fuel + 1, ch, e =>
    if ch.length > 64 then Engine.chunkBlocks c fuel (ch.drop 64) (e.ubiBlock c (chunkBlock ch) 64) else (e, ch)

/-- `if BCNT > 0`: the bytes that complete the buffered block are stored and the block is processed (R143); `k` may be
0 when `BCNT = 64`. -/
def Engine.chunkFill (c : Cfg) (ch : List Byte) (e : Engine) : Engine × List Byte :=
  if e.bcnt.val > 0 then
    let k := 64 - e.bcnt.val
    let e' := Engine.appendChunk (ch.take k) e
    ({ e'.ubiBlock c e'.buf.block 64 with bcnt := 0 }, ch.drop k)
  else (e, ch)

/-- `INGEST_CHUNK(c, n)` for `FIN = 0` (R143). -/
def Engine.ingestChunk (c : Cfg) (ch : List Byte) (e : Engine) : Engine :=
  if e.bcnt.val + ch.length > 64 then
    let r := e.chunkFill c ch
    let q := r.1.chunkBlocks c r.2.length r.2
    Engine.appendChunk q.2 q.1
  else Engine.appendChunk ch e

end Sys2Proof.Machine
end

