-- ==== Sys2Proof/Machine/Dispatch.lean ====
section
/-! DEFINITION. The meaning of each command, one arm per constructor of Instr. -/

namespace Sys2Proof.Machine

def exec (i : Instr) (s : State) : Host.Outcome State Fault Refusal :=
  match i with
  | .init => Sys2Proof.Machine.execInit s
  | .absorbB d => Sys2Proof.Machine.execAbsorbB d s
  | .digest => Sys2Proof.Machine.execDigest s
  | .reserved => Sys2Proof.Machine.execReserved s

end Sys2Proof.Machine
end

