-- ==== Sys2Proof/Machine/Step.lean ====
section
/-! DEFINITION. One step of the machine: one command (00_scope.md R12). -/

namespace Sys2Proof.Machine

/-- One step: the engine takes the command word the host presents, decodes it and executes it to completion (R12, R70).
While the host presents none, the engine is idle and holds its state (R213, R242; DEDUCED, log entry 4). -/
def step (s : State) : Host.Outcome State Fault Refusal :=
  match s.takeCommand with
  | none => .next s
  | some (w, s') => exec (decode w) s'

/-- `s` with the command word `w` presented next, so that the very next step runs it (log entry 3). The port is ten
bits wide (R70): a bit of `w` above place 9 does not reach it (DESIGN CHOICE, log entry 7). -/
def State.withFetchWord (s : State) (nbits w : Nat) : State := s.present (BitVec.ofNat 10 (w % 2 ^ nbits))

end Sys2Proof.Machine
end

