-- ==== Sys2Proof/Machine/HostLayer.lean ====
section
/-! DEFINITION. The host layer (44_host_layer.md R180 to R188): the pseudo-instructions, each a function from a typed
value to a byte sequence, followed by one `ABSORB.B` per byte, and the hexadecimal view of the digest. It adds no
state and no command to the engine. How operands are given is log entry 10. -/

namespace Sys2Proof.Machine

/-- A pseudo-instruction with its operand (30_encoding.md R77). -/
inductive Pseudo where
  /-- `INGEST.BYTES b0, ..., b(n-1)`, n >= 0 (R181). -/
  | ingestBytes (b : List Byte)
  /-- `INGEST.BOOL v` (R182). -/
  | ingestBool (v : Bool)
  /-- `INGEST.U8 v` (R183). -/
  | ingestU8 (v : Nat)
  /-- `INGEST.U16 v` (R183). -/
  | ingestU16 (v : Nat)
  /-- `INGEST.U32 v` (R183). -/
  | ingestU32 (v : Nat)
  /-- `INGEST.U64 v` (R183). -/
  | ingestU64 (v : Nat)
  /-- `INGEST.I8 v` (R183). -/
  | ingestI8 (v : Int)
  /-- `INGEST.I16 v` (R183). -/
  | ingestI16 (v : Int)
  /-- `INGEST.I32 v` (R183). -/
  | ingestI32 (v : Int)
  /-- `INGEST.I64 v` (R183). -/
  | ingestI64 (v : Int)
  /-- `INGEST.F32 v`, `v` given by its binary32 bit pattern, which "is hashed as it is" (R184). -/
  | ingestF32 (pattern : BitVec 32)
  /-- `INGEST.F64 v`, `v` given by its binary64 bit pattern (R184). -/
  | ingestF64 (pattern : BitVec 64)
  /-- `INGEST.TEXT s`, `s` given by its encoded bytes: "the caller supplies the already-encoded bytes" (R185). -/
  | ingestText (encoded : List Byte)
  /-- `DIGEST.HEX` (R187). -/
  | digestHex
  deriving DecidableEq, Repr

/-- The signed range of `w` bits. -/
def fitsSigned (w : Nat) (v : Int) : Bool := decide (-(2 ^ (w - 1)) ≤ v) && decide (v < 2 ^ (w - 1))

/-- The operand fits its width: "a value is never widened or narrowed" (R183). -/
def Pseudo.wf : Pseudo → Bool
  | .ingestBytes _ => true
  | .ingestBool _ => true
  | .ingestU8 v => decide (v < 2 ^ 8)
  | .ingestU16 v => decide (v < 2 ^ 16)
  | .ingestU32 v => decide (v < 2 ^ 32)
  | .ingestU64 v => decide (v < 2 ^ 64)
  | .ingestI8 v => fitsSigned 8 v
  | .ingestI16 v => fitsSigned 16 v
  | .ingestI32 v => fitsSigned 32 v
  | .ingestI64 v => fitsSigned 64 v
  | .ingestF32 _ => true
  | .ingestF64 _ => true
  | .ingestText _ => true
  | .digestHex => true

/-- "`b[k] = v[8k+7 : 8k]`, least significant byte first" (R183). -/
def leBytes (n : Nat) (v : BitVec (8 * n)) : List Byte := (List.range n).map fun k => v.extractLsb' (8 * k) 8

/-- The byte sequence of a typed value (R181 to R185). A signed value is "first taken as its w-bit two's complement bit
pattern" (R183; PRESUMED by the spec, GK7). `DIGEST.HEX` sends no byte. -/
def Pseudo.bytes (c : Cfg) : Pseudo → List Byte
  | .ingestBytes b => b
  | .ingestBool v => [if v then c.boolTrue else c.boolFalse]
  | .ingestU8 v => leBytes 1 (BitVec.ofNat 8 v)
  | .ingestU16 v => leBytes 2 (BitVec.ofNat 16 v)
  | .ingestU32 v => leBytes 4 (BitVec.ofNat 32 v)
  | .ingestU64 v => leBytes 8 (BitVec.ofNat 64 v)
  | .ingestI8 v => leBytes 1 (BitVec.ofInt 8 v)
  | .ingestI16 v => leBytes 2 (BitVec.ofInt 16 v)
  | .ingestI32 v => leBytes 4 (BitVec.ofInt 32 v)
  | .ingestI64 v => leBytes 8 (BitVec.ofInt 64 v)
  | .ingestF32 p => leBytes 4 p
  | .ingestF64 p => leBytes 8 p
  | .ingestText b => b
  | .digestHex => []

/-- `ABSORB.B #b[0]; ...; ABSORB.B #b[n-1]`, in that order (R180). -/
def ingest (b : List Byte) : List Instr := b.map Instr.absorbB

/-- The commands a pseudo-instruction expands to (R77, R180). -/
def Pseudo.expand (c : Cfg) (p : Pseudo) : List Instr :=
  match p with
  | .ingestBytes _ => ingest (p.bytes c)
  | .ingestBool _ => ingest (p.bytes c)
  | .ingestU8 _ => ingest (p.bytes c)
  | .ingestU16 _ => ingest (p.bytes c)
  | .ingestU32 _ => ingest (p.bytes c)
  | .ingestU64 _ => ingest (p.bytes c)
  | .ingestI8 _ => ingest (p.bytes c)
  | .ingestI16 _ => ingest (p.bytes c)
  | .ingestI32 _ => ingest (p.bytes c)
  | .ingestI64 _ => ingest (p.bytes c)
  | .ingestF32 _ => ingest (p.bytes c)
  | .ingestF64 _ => ingest (p.bytes c)
  | .ingestText _ => ingest (p.bytes c)
  | .digestHex => [.digest]

/-! ## The hexadecimal view of the digest (R187, R188) -/

/-- `HEXCHAR(v)`: '0' + v for 0..9, 'a' + v - 10 for 10..15, never upper case (R187). -/
def hexChar (v : BitVec 4) : Char := Char.ofNat (if v.toNat ≤ 9 then 0x30 + v.toNat else 0x61 + (v.toNat - 10))

/-- The two characters of a byte, "most-significant nibble first" (R187). -/
def hexByte (b : Byte) : List Char := [hexChar (b.extractLsb' 4 4), hexChar (b.extractLsb' 0 4)]

/-- hex(): two characters per byte, in order, with no prefix, separator or terminator (R187). -/
def hexString (data : List Byte) : List Char := data.flatMap hexByte

/-- The nibble a character of `0-9a-f` stands for; `none` for any other character. -/
def hexValue (ch : Char) : Option (BitVec 4) :=
  if 0x30 ≤ ch.toNat ∧ ch.toNat ≤ 0x39 then some (BitVec.ofNat 4 (ch.toNat - 0x30))
  else if 0x61 ≤ ch.toNat ∧ ch.toNat ≤ 0x66 then some (BitVec.ofNat 4 (ch.toNat - 0x61 + 10))
  else none

/-- Decoding a hex string pairwise back to bytes (R188); `none` where it is no such string. -/
def unhex : List Char → Option (List Byte)
  | [] => some []
  | [_] => none
  | a :: b :: rest =>
    match hexValue a, hexValue b, unhex rest with
    | some x, some y, some bytes => some ((x ++ y) :: bytes)
    | _, _, _ => none

end Sys2Proof.Machine
end

