-- ==== Sys2Proof/Machine/Assembler.lean ====
section
/-! DEFINITION. The assembler syntax of the spec's listings (30_encoding.md R76): one command per line, `;` starts a
comment, numbers are decimal or `0x` hexadecimal, a character in single quotes is its ASCII code. A line is a list of
characters. The reserved opcode has no syntax. What R76 leaves open is log entry 11: among it, that a line holds a command and no
pseudo-instruction. -/

namespace Sys2Proof.Machine

/-- Why a line is not of the syntax of R76. -/
inductive AsmError where
  /-- The first word of the line is no mnemonic. -/
  | unknownMnemonic
  /-- Something other than a comment stands after the command. -/
  | trailingText
  /-- `ABSORB.B` is not followed by `#` and a number or a quoted character. -/
  | badOperand
  /-- The operand is above 255 ("0 <= imm8 <= 255"), or the quoted character is no ASCII character. -/
  | operandOutOfRange
  deriving DecidableEq, Repr

/-- A blank or a tab. -/
def isBlank (ch : Char) : Bool := ch == ' ' || ch == '\t'

/-- The line without its leading blanks. -/
def skipBlanks : List Char → List Char
  | [] => []
  | ch :: rest => if isBlank ch then skipBlanks rest else ch :: rest

/-- Only blanks or a comment follow. -/
def restIsComment (line : List Char) : Bool :=
  match skipBlanks line with
  | [] => true
  | ch :: _ => ch == ';'

/-- The characters up to the next blank or comment, and the rest of the line. -/
def takeToken : List Char → List Char × List Char
  | [] => ([], [])
  | ch :: rest =>
    if isBlank ch || ch == ';' then ([], ch :: rest)
    else
      let t := takeToken rest
      (ch :: t.1, t.2)

/-- The value of a decimal digit. -/
def decimalDigit (ch : Char) : Option Nat :=
  if 0x30 ≤ ch.toNat ∧ ch.toNat ≤ 0x39 then some (ch.toNat - 0x30) else none

/-- The value of a hexadecimal digit, of either case. -/
def hexDigit (ch : Char) : Option Nat :=
  if 0x30 ≤ ch.toNat ∧ ch.toNat ≤ 0x39 then some (ch.toNat - 0x30)
  else if 0x61 ≤ ch.toNat ∧ ch.toNat ≤ 0x66 then some (ch.toNat - 0x61 + 10)
  else if 0x41 ≤ ch.toNat ∧ ch.toNat ≤ 0x46 then some (ch.toNat - 0x41 + 10)
  else none

/-- The digits of a number in base `base`, most significant first, on top of the value `acc` read so far. -/
def digitsValue (base : Nat) (digit : Char → Option Nat) : Nat → List Char → Option Nat
  | acc, [] => some acc
  | acc, ch :: rest =>
    match digit ch with
    | some v => digitsValue base digit (acc * base + v) rest
    | none => none

/-- A number, decimal or `0x` hexadecimal (R76). -/
def number : List Char → Option Nat
  | '0' :: 'x' :: ch :: rest => digitsValue 16 hexDigit 0 (ch :: rest)
  | [] => none
  | ch :: rest => digitsValue 10 decimalDigit 0 (ch :: rest)

/-- The operand after `#`: its value and the rest of the line (R76). -/
def operand : List Char → Option (Nat × List Char)
  | '\'' :: ch :: '\'' :: rest => some (if ch.toNat < 128 then ch.toNat else 256, rest)
  | line =>
    let t := takeToken line
    match number t.1 with
    | some v => some (v, t.2)
    | none => none

/-- The operand of `ABSORB.B`, after its mnemonic (R76). -/
def asmAbsorb (line : List Char) : Except AsmError Instr :=
  match skipBlanks line with
  | '#' :: rest =>
    match operand rest with
    | some (v, rest') =>
      if 255 < v then .error .operandOutOfRange
      else if restIsComment rest' then .ok (.absorbB (BitVec.ofNat 8 v))
      else .error .trailingText
    | none => .error .badOperand
  | _ => .error .badOperand

/-- One line: a command, or nothing on a line that is blank or a comment (R76). A line with a pseudo-instruction is refused
as `unknownMnemonic`: R76 shows the three commands only, while listing P6 of 95_test_vectors.md has `INGEST.U32` and
`DIGEST.HEX` lines (DESIGN CHOICE, log entry 11). Pseudo-instructions are `Pseudo`, in HostLayer.lean. -/
def asmLine (line : List Char) : Except AsmError (Option Instr) :=
  if restIsComment line then .ok none
  else
    let t := takeToken (skipBlanks line)
    if t.1 = ['I', 'N', 'I', 'T'] then
      if restIsComment t.2 then .ok (some .init) else .error .trailingText
    else if t.1 = ['D', 'I', 'G', 'E', 'S', 'T'] then
      if restIsComment t.2 then .ok (some .digest) else .error .trailingText
    else if t.1 = ['A', 'B', 'S', 'O', 'R', 'B', '.', 'B'] then
      match asmAbsorb t.2 with
      | .ok i => .ok (some i)
      | .error err => .error err
    else .error .unknownMnemonic

/-- The command words of a listing, one line each, or the first line that is wrong (R76). -/
def assemble : List (List Char) → Except AsmError (List CmdWord)
  | [] => .ok []
  | line :: rest =>
    match asmLine line, assemble rest with
    | .ok none, .ok ws => .ok ws
    | .ok (some i), .ok ws => .ok (encode i :: ws)
    | .error err, _ => .error err
    | .ok _, .error err => .error err

/-- A command in the syntax of R76, its operand in hexadecimal; the reserved opcode has none. -/
def Instr.asmText : Instr → Option (List Char)
  | .init => some ['I', 'N', 'I', 'T']
  | .absorbB d => some (['A', 'B', 'S', 'O', 'R', 'B', '.', 'B', ' ', '#', '0', 'x'] ++ hexByte d)
  | .digest => some ['D', 'I', 'G', 'E', 'S', 'T']
  | .reserved => none

end Sys2Proof.Machine
end

