-- ==== Sys2Proof/Machine/InPlace.lean ====
section
/-! DEFINITION. The permutation core in the form without data movement (40_threefish512.md R110): the words stay in
place and the pairs change from round to round, the source's "four fixed permutations of the 8 words, repeating every 4
rounds". The machine does not use this form; R109 is the normative one. -/

namespace Sys2Proof.Machine

/-- The pair (A, B) of mix j in round r, by `r mod 4` (the table of R110). -/
def inPlacePairs : Vector (Vector (Fin 8 × Fin 8) 4) 4 :=
  #v[#v[(0, 1), (2, 3), (4, 5), (6, 7)],
     #v[(2, 1), (4, 7), (6, 5), (0, 3)],
     #v[(4, 1), (6, 3), (0, 5), (2, 7)],
     #v[(6, 1), (0, 7), (2, 5), (4, 3)]]

/-- One mix on the words A and B, left in place (R110). -/
def mixInPlace (x : Words) (p : Fin 8 × Fin 8) (rot : Nat) : Words :=
  let m := mix x[p.1] x[p.2] rot
  (x.set p.1.val m.1).set p.2.val m.2

/-- The four mixes of round r in place; the rotation is still `ROT[r mod 8][j]` (R110). -/
def roundInPlace (c : Cfg) (x : Words) (r : Nat) : Words :=
  let pairs := inPlacePairs[r % 4]'(Nat.mod_lt _ (by decide))
  (List.finRange 4).foldl (fun x j => mixInPlace x pairs[j] (rotSet c r)[j]) x

/-- Round r in place with the periodic injection that follows it (R110, R111). -/
def roundInjectInPlace (c : Cfg) (ks : Vector Word 9) (ts : Vector Word 3) (x : Words) (r : Nat) : Words :=
  let y := roundInPlace c x r
  if r % injectPeriod = 3 then inject y ks ts (r / injectPeriod + 1) else y

/-- The whole cipher call in the form of R110. -/
def e512InPlace (c : Cfg) (k : Words) (t0 t1 : Word) (p : Words) : Words :=
  let ks := ksExtend c k
  let ts := tsExtend t0 t1
  (List.range roundCount).foldl (roundInjectInPlace c ks ts) (inject p ks ts 0)

end Sys2Proof.Machine
end

