-- ==== Sys2Proof/Machine/ClosedForm.lean ====
section
/-! DEFINITION. The engine's function in closed form, written from the rules that give it so (42_stream_buffer.md R144,
43_finalize_output.md R165, 41_ubi_block.md R137) and not from the commands: the machine does not call anything here.
The bridge between the two is a matter of statements. -/

namespace Sys2Proof.Machine

/-- Byte `o` of the message `m`, zero past its end (`Mpad` of R165). -/
def paddedByte (m : List Byte) (o : Nat) : Byte := m.getD o 0

/-- `Wk = BLOCK_TO_WORDS(Mpad[64k .. 64k+63])` (R144, R165). -/
def messageWords (m : List Byte) (k : Nat) : Words := blockToWords fun a => paddedByte m (64 * k + a.val)

/-- `P`: the blocks processed after `n` bytes, "0 if N = 0, else floor((N - 1) / 64)" (R144, 10_state.md R37). -/
def blocksProcessed (n : Nat) : Nat := if n = 0 then 0 else (n - 1) / 64

/-- `G(k)` of R144: the chaining value after `k` streaming blocks of the message. -/
def streamChain (c : Cfg) (m : List Byte) : Nat → Words
  | 0 => c.iv
  | k + 1 =>
    let g := streamChain c m k
    let w := messageWords m k
    feedForward (e512 c g (BitVec.ofNat 64 (64 * (k + 1))) (c.t1TypeMsg ||| (if k = 0 then c.t1First else 0)) w) w

/-- `L = max(1, ceil(N / 64))`, the blocks of the whole message (R137, R165). -/
def messageBlocks (n : Nat) : Nat := max 1 ((n + 63) / 64)

/-- `T0` at the cipher call of block `k` of a message of `n` bytes (R137, R165). -/
def callT0 (n k : Nat) : Word :=
  if k < messageBlocks n - 1 then BitVec.ofNat 64 (64 * (k + 1)) else BitVec.ofNat 64 n

/-- `T1` at the cipher call of block `k` of a message of `n` bytes (R137, R165). -/
def callT1 (c : Cfg) (n k : Nat) : Word :=
  c.t1TypeMsg ||| (if k = 0 then c.t1First else 0) ||| (if k = messageBlocks n - 1 then c.t1Final else 0)

/-- `G(k)` of R165: the chaining value after `k` blocks of the whole message, the last one with FINAL. -/
def hashChain (c : Cfg) (m : List Byte) : Nat → Words
  | 0 => c.iv
  | k + 1 =>
    let g := hashChain c m k
    let w := messageWords m k
    feedForward (e512 c g (callT0 m.length k) (callT1 c m.length k) w) w

/-- `OUT = E512(G(L), (8, T1_TYPE_OUT OR T1_FIRST OR T1_FINAL), 0 x8)` (R165). -/
def outputWords (c : Cfg) (m : List Byte) : Words :=
  e512 c (hashChain c m (messageBlocks m.length)) 8 (outputTweak c) (words8 fun _ => 0)

/-- `digest(M) = WORDS_TO_BYTES(OUT)` (R165). -/
def digestOf (c : Cfg) (m : List Byte) : List Byte := blockBytes (wordsToBytes (outputWords c m))

end Sys2Proof.Machine
end

