-- ==== Sys2Proof/Machine/Command.lean ====
section
/-! DEFINITION. The step of the engine for any configuration: "a total, deterministic function from (state, command
word) to (state, response)" (00_scope.md R12), and its left fold over a sequence of commands, the meaning of a run
(70_reset_and_hazards.md R242). `exec` is this function at the configuration of this hardware. -/

namespace Sys2Proof.Machine

/-- One command of one engine (R12). -/
def Engine.command (c : Cfg) (i : Instr) (e : Engine) : Engine × Response :=
  match i with
  | .init => e.initCmd c
  | .absorbB d => e.absorbCmd c d
  | .digest => e.digestCmd c
  | .reserved => e.reservedCmd

/-- A run: the left fold of the command step, and the responses in order (R242). -/
def Engine.run (c : Cfg) : List Instr → Engine → Engine × List Response
  | [], e => (e, [])
  | i :: is, e =>
    let r := e.command c i
    let q := Engine.run c is r.1
    (q.1, r.2 :: q.2)

end Sys2Proof.Machine
end

