-- ==== Sys2Proof/Safety.lean ====
section
/-! DEFINITION. The terms in which claims about the machine are made: the invariant of its states (10_state.md R24, R27,
R37), the session a state stands for (R36, 20_memory.md R51, R62), what of a state no command can tell (R26, R28), the
part of a state that decides what a command does (70_reset_and_hazards.md R241), and the command sequences a host may
issue without a fault (R232, R233). -/

namespace Sys2Proof.Machine

/-! ## The invariant -/

/-- What holds of the engine between commands (R24, R27, R37, R166), beside the canonical form of the two spaces. It
mentions no message: what a state says of the message is `Represents`. -/
structure Engine.Inv (c : Cfg) (e : Engine) : Prop where
  /-- `BUF` is in canonical form. -/
  buf_wf : e.buf.wf = true
  /-- `DG` is in canonical form. -/
  dg_wf : e.dg.wf = true
  /-- While `FIN = 0`: before the first block `H = IV` and `T = (0, FIRST and MESSAGE)`; from the first block on the
  tweak is MESSAGE alone, `T0` is a multiple of 64 and the buffer is not empty (R24, R27, R37 INV4 to INV7). -/
  absorbing : e.fin = false →
    (e.h = c.iv ∧ e.t0 = 0 ∧ e.t1 = messageTweak c) ∨
    (1 ≤ e.bcnt.val ∧ e.t0.toNat % 64 = 0 ∧ e.t1 = c.t1TypeMsg)
  /-- While `FIN = 1`: `DG = WORDS_TO_BYTES(H)`, `T0 = 8`, `T1` is OUTPUT and FINAL, `BUF[BCNT..63] = 0` (R37, R166). -/
  finalised : e.fin = true →
    e.dg.block = wordsToBytes e.h ∧ e.t0 = 8 ∧ e.t1 = (c.t1TypeOut ||| c.t1Final) ∧
    ∀ a : Fin 64, e.bcnt.val ≤ a.val → e.buf.read a = 0
  /-- `ERR = 0` implies `ERRCODE = 0` (R37 INV8). -/
  no_err : e.err = false → e.errcode = 0
  /-- A set `ERR` comes with the code of one of the two faults (R200, R203). -/
  err_code : e.err = true → e.errcode = FaultKind.useAfterFinalize.code ∨ e.errcode = FaultKind.illegalCommand.code

/-! ## The values finalisation computes, as the rules print them (R160, R161) -/

/-- The block `FINALIZE` step 1 processes: the buffered bytes, then zeros (R160). -/
def Engine.paddedBlock (e : Engine) : Block := fun a => if a.val < e.bcnt.val then e.buf.read a else 0

/-- The chaining value after `FINALIZE` step 1 (R160, R130). -/
def Engine.messageChain (e : Engine) : Words :=
  words8 fun i =>
    (e512 Config.sk512 e.h (e.t0 + BitVec.ofNat 64 e.bcnt.val) (e.t1 ||| 0x8000000000000000)
      (blockToWords e.paddedBlock))[i] ^^^ (blockToWords e.paddedBlock)[i]

/-- The chaining value after `FINALIZE` step 2 (R161): the feed-forward of eight zero words changes nothing. -/
def Engine.outputChain (e : Engine) : Words :=
  e512 Config.sk512 e.messageChain 8 0xFF00000000000000 #v[0, 0, 0, 0, 0, 0, 0, 0]

/-! ## The session a state stands for -/

/-- What the host knows of a session without looking into the engine: the bytes it has absorbed since `INIT` (R51),
whether the digest has been requested (R36), and the fault record (R30). -/
structure Session where
  /-- The message `M[0..N-1]` (R51). -/
  message : List Byte
  /-- The digest has been requested. -/
  finalised : Bool
  /-- The sticky fault flag. -/
  err : Bool
  /-- The code of the first fault. -/
  errcode : BitVec 2
  deriving DecidableEq, Repr

/-- The session after `INIT` or reset. -/
def Session.fresh : Session := { message := [], finalised := false, err := false, errcode := 0 }

/-- A fault in a session (R203). -/
def Session.raise (k : FaultKind) (a : Session) : Session × Response :=
  let a' := if a.err then a else { a with err := true, errcode := k.code }
  (a', { fault := k.code, err := a'.err, errcode := a'.errcode, data := [] })

/-- What a command does to a session and what it answers: the lifecycle of R36, with the digest of R165. -/
def Session.command (c : Cfg) (i : Instr) (a : Session) : Session × Response :=
  match i with
  | .init => (Session.fresh, { fault := noFault, err := false, errcode := 0, data := [] })
  | .absorbB d =>
    if a.finalised then a.raise .useAfterFinalize
    else ({ a with message := a.message ++ [d] }, { fault := noFault, err := a.err, errcode := a.errcode, data := [] })
  | .digest =>
    ({ a with finalised := true },
     { fault := noFault, err := a.err, errcode := a.errcode, data := digestOf c a.message })
  | .reserved => a.raise .illegalCommand

/-- The engine `e` stands for the session `a`: the fault record and the finalised flag are the session's; while
`FIN = 0` the other fields are the closed form of R144 on the message, and while `FIN = 1` the cached digest is that of
the message (R165). -/
structure Represents (c : Cfg) (a : Session) (e : Engine) : Prop where
  /-- `ERR`. -/
  err : e.err = a.err
  /-- `ERRCODE`. -/
  errcode : e.errcode = a.errcode
  /-- `FIN`. -/
  fin : e.fin = a.finalised
  /-- While `FIN = 0`, the closed form of R144. -/
  absorbing : a.finalised = false →
    e.h = streamChain c a.message (blocksProcessed a.message.length) ∧
    e.t0 = BitVec.ofNat 64 (64 * blocksProcessed a.message.length) ∧
    e.t1 = (if blocksProcessed a.message.length = 0 then messageTweak c else c.t1TypeMsg) ∧
    e.bcnt.val = a.message.length - 64 * blocksProcessed a.message.length ∧
    ∀ k : Fin 64, k.val < e.bcnt.val →
      e.buf.read k = paddedByte a.message (64 * blocksProcessed a.message.length + k.val)
  /-- While `FIN = 1`, the cached digest of R165. -/
  finalised : a.finalised = true → blockBytes e.dg.block = digestOf c a.message

/-! ## What no command can tell -/

/-- The two engines differ at most in what the spec leaves unspecified: the bytes of `BUF` from `BCNT` on (R26), `DG`
while `FIN = 0` (R28), and, while `FIN = 1`, `H`, `T`, `BUF` and `BCNT`, which no command then reads (R166). -/
structure Indistinguishable (e f : Engine) : Prop where
  /-- `FIN`. -/
  fin : e.fin = f.fin
  /-- `ERR`. -/
  err : e.err = f.err
  /-- `ERRCODE`. -/
  errcode : e.errcode = f.errcode
  /-- While `FIN = 0`, everything but `DG` and the bytes of `BUF` from `BCNT` on. -/
  absorbing : e.fin = false → e.h = f.h ∧ e.t0 = f.t0 ∧ e.t1 = f.t1 ∧ e.bcnt = f.bcnt ∧
    ∀ k : Fin 64, k.val < e.bcnt.val → e.buf.read k = f.buf.read k
  /-- While `FIN = 1`, the cached digest. -/
  finalised : e.fin = true → e.dg.block = f.dg.block

/-- The part of the state that decides what a command does: `FIN` and `BCNT` (R241). -/
def Engine.control (e : Engine) : Bool × Fin 65 := (e.fin, e.bcnt)

/-- The fault record: `ERR` and `ERRCODE` (R30). -/
def Engine.faultRecord (e : Engine) : Bool × BitVec 2 := (e.err, e.errcode)

/-! ## Runs without a fault -/

/-- The command sequences that meet no fault from a state with `FIN = fin`: no reserved word, and no `ABSORB.B` after a
`DIGEST` "until the next `INIT`" (R233). -/
def faultFreeOrder : Bool → List Instr → Bool
  | _, [] => true
  | _, .init :: is => faultFreeOrder false is
  | fin, .absorbB _ :: is => !fin && faultFreeOrder fin is
  | _, .digest :: is => faultFreeOrder true is
  | _, .reserved :: _ => false

/-- The run is safe: no command of it was answered with a fault. -/
def FaultFree (rs : List Response) : Prop := ∀ r ∈ rs, r.fault = noFault

end Sys2Proof.Machine
end

