-- ==== Sys2Proof/Certificates/Slice0/Obligations.lean ====
section
/-! DEFINITION. The statements about the machine. Each says in its docstring which rule of the spec it rests on.
Statements that hold for every configuration take one; the constraints of R8 (`Cfg.wf`) stand as a premise where they
are needed. -/

open Sys2Proof Sys2Proof.Machine

/-! ## Encoding -/

/-- R71: the opcode map as the rule prints it; every ten-bit word selects exactly one row of it, and decodes to that
row's command, which is the one its `op` field assigns. -/
def Obligations.EveryWordSelectsOneRow : Prop :=
  opcodeRows.map (fun r => (r.mnemonic, r.matchBits, r.mask)) =
    [("INIT", 0x000, 0x300), ("ABSORB.B", 0x100, 0x300), ("DIGEST", 0x200, 0x300), ("RESERVED", 0x300, 0x300)] ∧
  ∀ w : CmdWord,
    (opcodeRows.filter (fun r => w &&& r.mask == r.matchBits)).map OpcodeRow.mnemonic = [(decode w).mnemonic] ∧
    (opField w = 0b00 → decode w = .init) ∧ (opField w = 0b01 → decode w = .absorbB (dataField w)) ∧
    (opField w = 0b10 → decode w = .digest) ∧ (opField w = 0b11 → decode w = .reserved)

/-- R70 to R73: decoding the word of a command gives the command back, with every operand; and encoding what a word
decodes to gives the word back but for the ignored `data` field of the rows that have no operand. The word `0x300` of
the reserved row is the model's choice (log entry 5). -/
def Obligations.DecodeAndEncodeAgree : Prop :=
  (∀ i : Instr, i.wf = true → decode (encode i) = i) ∧
  (∀ w : CmdWord, encode (decode w) = if opField w = 1 then w else w &&& 0x300)

/-- R73 (b): the `data` field of every row but `ABSORB.B` is ignored, "all 256 values encode the same command". -/
def Obligations.IgnoredDataFieldIsIgnored : Prop :=
  ∀ v w : CmdWord, opField v = opField w → opField v ≠ 1 → decode v = decode w

/-- R78, the worked encodings. -/
def Obligations.WorkedEncodingsDecode : Prop :=
  encode (.absorbB 0x61) = 0b0101100001 ∧ encode (.absorbB 0xFF) = 0x1FF ∧ encode (.absorbB 0) = 0x100 ∧
  encode .init = 0x000 ∧ encode .digest = 0x200 ∧
  decode 0x161 = .absorbB 0x61 ∧ decode 0x1FF = .absorbB 0xFF ∧ decode 0x100 = .absorbB 0 ∧ decode 0x000 = .init ∧ decode 0x0A5 = .init ∧ decode 0x200 = .digest ∧
  decode 0x2FF = .digest ∧ ∀ w : CmdWord, 0x300 ≤ w.toNat → decode w = .reserved

/-- R76, R77: a listing of commands in the spec's syntax assembles to the commands' canonical words, in order, and
those words decode to the commands listed. -/
def Obligations.ListingAssemblesToItsCommands : Prop :=
  ∀ (is : List Instr) (lines : List (List Char)), is.map Instr.asmText = lines.map some →
    assemble lines = .ok (is.map encode) ∧ (is.map encode).map decode = is

/-! ## The step -/

/-- R12, R70: a step takes the command word the host presents and runs the command it decodes to, at the state without
that word. -/
def Obligations.StepRunsTheDecodedCommand : Prop :=
  ∀ (s : State) (w : CmdWord) (rest : List CmdWord), s.port = w :: rest →
    step s = exec (decode w) { s with port := rest }

/-- Log entry 4 (the model's reading of R213 and R242): with no command word presented a step leaves the machine as
it is. -/
def Obligations.IdleStepHoldsTheState : Prop := ∀ s : State, s.port = [] → step s = .next s

/-- R70: the engine executes the presented word to completion and returns exactly one response; no command stops it. -/
def Obligations.EachWordGetsOneResponse : Prop :=
  ∀ (s : State) (w : CmdWord) (rest : List CmdWord), s.port = w :: rest →
    ∃ (e : Engine) (r : Response), step s = .next { engine := e, port := rest, responses := s.responses ++ [r] }

/-- R242, R12: what a machine does with the command words presented to it is the left fold of the command step over
them, and its responses are those of the fold, in order. -/
def Obligations.RunIsTheFoldOfCommands : Prop :=
  ∀ s : State,
    let q := Engine.run Config.sk512 (s.port.map decode) s.engine
    Host.Core.run core s.port.length s = .next { engine := q.1, port := [], responses := s.responses ++ q.2 }

/-! ## The commands -/

/-- R140: `INIT`, whatever its `data` field, in every state. `IV` and the two `T1` constants are fields of the
configuration. -/
def Obligations.InitConstructsTheSession : Prop :=
  ∀ (s : State) (w : CmdWord), opField w = 0b00 → exec (decode w) s = .next
    { engine :=
        { s.engine with
          h := Config.sk512.iv
          t0 := 0, t1 := Config.sk512.t1First ||| Config.sk512.t1TypeMsg
          bcnt := 0, fin := false, err := false, errcode := 0 }
      port := s.port
      responses := s.responses ++ [{ fault := 0, err := false, errcode := 0, data := [] }] }

/-- R141: `ABSORB.B #d` in its three cases. With `FIN = 1` it raises `UseAfterFinalize` (the fault record, R203);
with `FIN = 0` and `BCNT < 64` it stores `d` at `BUF[BCNT]` and counts it; with `FIN = 0` and `BCNT = 64` it first
processes the full block (position add, cipher call, feed-forward, FIRST cleared) and stores `d` at `BUF[0]`. The word
of the command is `0x100 + d`. -/
def Obligations.AbsorbStoresOrProcesses : Prop :=
  ∀ (s : State) (d : Byte),
    decode (0x100 + d.setWidth 10) = .absorbB d ∧
    (s.engine.fin = true → exec (.absorbB d) s = .next
      { s with
        engine := { s.engine with err := true, errcode := if s.engine.err then s.engine.errcode else 1 }
        responses := s.responses ++
          [{ fault := 1, err := true, errcode := if s.engine.err then s.engine.errcode else 1, data := [] }] }) ∧
    (s.engine.fin = false → ∀ h : s.engine.bcnt.val < 64, exec (.absorbB d) s = .next
      { s with
        engine :=
          { s.engine with
            buf := s.engine.buf.write ⟨s.engine.bcnt.val, h⟩ d
            bcnt := ⟨s.engine.bcnt.val + 1, by omega⟩ }
        responses := s.responses ++
          [{ fault := 0, err := s.engine.err, errcode := s.engine.errcode, data := [] }] }) ∧
    (s.engine.fin = false → s.engine.bcnt.val = 64 → exec (.absorbB d) s = .next
      { s with
        engine :=
          { s.engine with
            h := words8 fun i =>
              (e512 Config.sk512 s.engine.h (s.engine.t0 + 64) s.engine.t1 (blockToWords s.engine.buf.block))[i]
                ^^^ (blockToWords s.engine.buf.block)[i]
            t0 := s.engine.t0 + 64
            t1 := s.engine.t1 &&& ~~~Config.sk512.t1First
            buf := s.engine.buf.write 0 d
            bcnt := 1 }
        responses := s.responses ++
          [{ fault := 0, err := s.engine.err, errcode := s.engine.errcode, data := [] }] })

/-- R160 to R163, R166: the first `DIGEST` of a session closes the chain, runs the output transform, caches the digest
and answers it; `ERR` and `BCNT` stay, and `BUF` holds the padded block. The values of `T1` are those of the spec's
default layout (R8; log entry 1), and what `H`, `T`, `BUF` and `BCNT` hold afterwards is what the rules leave (R166; log
entry 6). -/
def Obligations.FirstDigestFinalises : Prop :=
  ∀ s : State, s.engine.fin = false → ∃ t : State, exec .digest s = .next t ∧
    t.engine.h = s.engine.outputChain ∧ t.engine.t0 = 8 ∧ t.engine.t1 = 0xBF00000000000000 ∧
    t.engine.dg.block = wordsToBytes s.engine.outputChain ∧ t.engine.fin = true ∧
    t.engine.buf.block = s.engine.paddedBlock ∧ t.engine.bcnt = s.engine.bcnt ∧
    t.engine.err = s.engine.err ∧ t.engine.errcode = s.engine.errcode ∧ t.port = s.port ∧
    t.responses = s.responses ++
      [{ fault := 0, err := s.engine.err, errcode := s.engine.errcode
         data := blockBytes (wordsToBytes s.engine.outputChain) }]

/-- R163, R58: a later `DIGEST` of a session writes nothing and answers the cached 64 bytes. -/
def Obligations.LaterDigestIsALookup : Prop :=
  ∀ s : State, s.engine.fin = true → exec .digest s = .next
    { s with
      responses := s.responses ++
        [{ fault := 0, err := s.engine.err, errcode := s.engine.errcode, data := blockBytes s.engine.dg.block }] }

/-- R202, R203: a command word with bits 9:8 = `11` raises `IllegalCommand`, in any state, and changes nothing but the
fault record. -/
def Obligations.ReservedWordRaisesIllegalCommand : Prop :=
  ∀ (s : State) (w : CmdWord), opField w = 0b11 → exec (decode w) s = .next
    { s with
      engine := { s.engine with err := true, errcode := if s.engine.err then s.engine.errcode else 2 }
      responses := s.responses ++
        [{ fault := 2, err := true, errcode := if s.engine.err then s.engine.errcode else 2, data := [] }] }

/-! ## Frames -/

/-- The frame of `ABSORB.B` with `FIN = 0` (R141, R39): every byte of `BUF` but the one at the store address, all of
`DG`, `FIN`, the fault record and the port are unchanged, and so are `H` and `T` unless a full block was waiting. -/
def Obligations.AbsorbChangesOneByteOfBuf : Prop :=
  ∀ (s t : State) (d : Byte), s.engine.fin = false → exec (.absorbB d) s = .next t →
    t.engine.buf.read s.engine.storeAddr = d ∧
    (∀ a : Fin 64, a ≠ s.engine.storeAddr → t.engine.buf.read a = s.engine.buf.read a) ∧
    t.engine.dg = s.engine.dg ∧ t.engine.fin = s.engine.fin ∧ t.engine.err = s.engine.err ∧
    t.engine.errcode = s.engine.errcode ∧ t.port = s.port ∧
    (s.engine.bcnt.val < 64 →
      t.engine.h = s.engine.h ∧ t.engine.t0 = s.engine.t0 ∧ t.engine.t1 = s.engine.t1)

/-- The frame of the commands that store no byte of `BUF` or `DG`: `INIT`, a reserved word, `ABSORB.B` and `DIGEST` with
`FIN = 1` (R39): every byte of both spaces reads as before, and the port is untouched; all but `INIT` leave `H`, `T`,
`BCNT` and `FIN` as well. -/
def Obligations.OtherCommandsStoreNothing : Prop :=
  ∀ (i : Instr) (s t : State), exec i s = .next t →
    (i = .init ∨ i = .reserved ∨ s.engine.fin = true) →
    (∀ a : Fin 64, t.engine.buf.read a = s.engine.buf.read a) ∧
    (∀ a : Fin 64, t.engine.dg.read a = s.engine.dg.read a) ∧ t.port = s.port ∧
    (i ≠ .init → t.engine.h = s.engine.h ∧ t.engine.t0 = s.engine.t0 ∧ t.engine.t1 = s.engine.t1 ∧
      t.engine.bcnt = s.engine.bcnt ∧ t.engine.fin = s.engine.fin)

/-- The frame of the first `DIGEST` (R163, R166): the buffered bytes, `BCNT`, the fault record and the port are
unchanged. -/
def Obligations.FirstDigestKeepsTheBufferedBytes : Prop :=
  ∀ s t : State, s.engine.fin = false → exec .digest s = .next t →
    (∀ a : Fin 64, a.val < s.engine.bcnt.val → t.engine.buf.read a = s.engine.buf.read a) ∧
    (∀ a : Fin 64, s.engine.bcnt.val ≤ a.val → t.engine.buf.read a = 0) ∧
    t.engine.bcnt = s.engine.bcnt ∧ t.engine.err = s.engine.err ∧ t.engine.errcode = s.engine.errcode ∧
    t.port = s.port

/-! ## Faults and responses -/

/-- R203: a faulting command sets the fault record, if no fault of the session has set it before, answers with its code
and the updated record, and does nothing else. The next command executes normally: its fault code, its data and all it
leaves of the engine but the fault record are those of the same command without the fault; and until the next `INIT` its
response shows the fault. -/
def Obligations.FaultingCommandOnlyRecordsTheFault : Prop :=
  ∀ (c : Cfg) (i : Instr) (e : Engine), (e.command c i).2.fault ≠ 0 →
    let f := (e.command c i).1
    f = { e with err := true, errcode := if e.err then e.errcode else (e.command c i).2.fault } ∧
    (e.command c i).2.err = f.err ∧ (e.command c i).2.errcode = f.errcode ∧ (e.command c i).2.data = [] ∧
    ∀ j : Instr,
      (f.command c j).1 =
        { (e.command c j).1 with err := (f.command c j).1.err, errcode := (f.command c j).1.errcode } ∧
      (f.command c j).2.fault = (e.command c j).2.fault ∧ (f.command c j).2.data = (e.command c j).2.data ∧
      (j ≠ .init → (f.command c j).2.err = true)

/-- R200, R201, R202, R205, R208: the fault code of a command, by its opcode and `FIN`. -/
def Obligations.FaultCodeByOpcodeAndFin : Prop :=
  ∀ (c : Cfg) (e : Engine),
    (e.command c .init).2.fault = 0 ∧ (e.command c .digest).2.fault = 0 ∧
    (e.command c .reserved).2.fault = 2 ∧
    ∀ d : Byte, (e.command c (.absorbB d)).2.fault = if e.fin then 1 else 0

/-- R30, R204: no command but `INIT` clears the fault record or changes the code of the first fault. -/
def Obligations.OnlyInitClearsTheFaultRecord : Prop :=
  ∀ (c : Cfg) (i : Instr) (e : Engine), e.err = true → i ≠ .init →
    (e.command c i).1.err = true ∧ (e.command c i).1.errcode = e.errcode

/-- R147, R201: `ABSORB.B` after the digest was requested raises `UseAfterFinalize` and changes neither `H`, `T`, `BUF`,
`BCNT`, `DG` nor `FIN`; the cached digest stays valid: the next `DIGEST` answers the same 64 bytes. -/
def Obligations.AbsorbAfterDigestKeepsTheDigest : Prop :=
  ∀ (c : Cfg) (d : Byte) (e : Engine), e.fin = true →
    let r := e.command c (.absorbB d)
    r.2.fault = FaultKind.useAfterFinalize.code ∧ r.1.h = e.h ∧ r.1.t0 = e.t0 ∧ r.1.t1 = e.t1 ∧ r.1.buf = e.buf ∧
    r.1.bcnt = e.bcnt ∧ r.1.dg = e.dg ∧ r.1.fin = e.fin ∧
    (r.1.command c .digest).2.data = (e.command c .digest).2.data

/-- R75: the response of every command. Its code is 1 for `ABSORB.B` with `FIN = 1`, 2 for a reserved word, else 0;
`err` and `errcode` are the values of `ERR` and `ERRCODE` after the command; `data` is the 64 bytes of `DG` for `DIGEST`,
`DG[0]` first, and empty for every other command. Byte 0 is the least significant byte of output word 0. -/
def Obligations.ResponseFieldsAsTheRecordSays : Prop :=
  ∀ (c : Cfg) (i : Instr) (e : Engine),
    let f := (e.command c i).1
    let r := (e.command c i).2
    (r.fault = 1 ↔ e.fin = true ∧ ∃ d, i = .absorbB d) ∧ (r.fault = 2 ↔ i = .reserved) ∧ r.fault ≠ 3 ∧
    r.err = f.err ∧ r.errcode = f.errcode ∧
    (i = .digest → r.data.length = 64 ∧ (∀ a : Fin 64, r.data[a.val]? = some (f.dg.read a)) ∧
      (e.fin = false → ∀ j k : Fin 8, r.data[8 * j.val + k.val]? = some (f.h[j].extractLsb' (8 * k.val) 8))) ∧
    (i ≠ .digest → r.data = [])

/-! ## Flags and lifecycle -/

/-- R135, R23: `UBI_BLOCK` clears FIRST and leaves FINAL and every other bit of T1. -/
def Obligations.UbiBlockClearsFirstOnly : Prop :=
  ∀ (c : Cfg) (b : Block) (n : Nat) (e : Engine), c.wf = true →
    firstFlag c (e.ubiBlock c b n).t1 = false ∧
    finalFlag c (e.ubiBlock c b n).t1 = finalFlag c e.t1 ∧
    (e.ubiBlock c b n).t1 ||| c.t1First = e.t1 ||| c.t1First

/-- R130, R131, R132, R134: `UBI_BLOCK` word by word, and what it leaves alone. -/
def Obligations.UbiBlockWritesChainAndTweak : Prop :=
  ∀ (c : Cfg) (b : Block) (n : Nat) (e : Engine),
    (e.ubiBlock c b n).t0 = e.t0 + BitVec.ofNat 64 n ∧
    (e.ubiBlock c b n).t1 = e.t1 &&& ~~~c.t1First ∧
    (∀ i : Fin 8, (e.ubiBlock c b n).h[i] =
      (e512 c e.h (e.t0 + BitVec.ofNat 64 n) e.t1 (blockToWords b))[i] ^^^ le64 (fun k => b (byteAddr i k))) ∧
    (e.ubiBlock c b n).buf = e.buf ∧ (e.ubiBlock c b n).bcnt = e.bcnt ∧ (e.ubiBlock c b n).dg = e.dg ∧
    (e.ubiBlock c b n).fin = e.fin ∧ (e.ubiBlock c b n).err = e.err ∧ (e.ubiBlock c b n).errcode = e.errcode

/-- R36: how each command moves a session between the phases FRESH, STREAMING and FINALISED; the 65th byte is the one
absorbed at `BCNT = 64`. -/
def Obligations.PhasesFollowTheLifecycle : Prop :=
  ∀ (c : Cfg) (e : Engine), c.wf = true →
    (e.command c .init).1.phase c = .fresh ∧
    (e.command c .digest).1.phase c = .finalised ∧
    (e.command c .reserved).1.phase c = e.phase c ∧
    ∀ d : Byte, (e.command c (.absorbB d)).1.phase c =
      if e.phase c = .fresh ∧ e.bcnt.val = 64 then .streaming else e.phase c

/-- R232, R233, R200: a run meets no fault exactly when it presents no reserved word and no `ABSORB.B` between a `DIGEST`
and the next `INIT`. -/
def Obligations.FaultFreeRunsAreTheOrderedOnes : Prop :=
  ∀ (c : Cfg) (is : List Instr) (e : Engine), FaultFree (e.run c is).2 ↔ faultFreeOrder e.fin is = true

/-! ## Bytes, words and the two spaces -/

/-- R15: `LE64` is the little-endian sum, `BYTES_LE64` takes the slices of eight bits, `BLOCK_TO_WORDS` and
`WORDS_TO_BYTES` apply them word by word, and the two are inverse to each other. -/
def Obligations.ByteAndWordConversionsInvert : Prop :=
  (∀ b : Fin 8 → Byte, (le64 b).toNat = ∑ k : Fin 8, (b k).toNat * 2 ^ (8 * k.val)) ∧
  (∀ (w : Word) (k : Fin 8), byteOf w k = w.extractLsb' (8 * k.val) 8) ∧
  (∀ (b : Block) (i : Fin 8), (blockToWords b)[i] = le64 fun k => b ⟨8 * i.val + k.val, by omega⟩) ∧
  (∀ (w : Words) (i k : Fin 8), wordsToBytes w ⟨8 * i.val + k.val, by omega⟩ = byteOf w[i] k) ∧
  (∀ b : Block, wordsToBytes (blockToWords b) = b) ∧
  (∀ w : Words, blockToWords (wordsToBytes w) = w)

/-- R50, R16, and the canonical form the model keeps its two spaces in: a write changes the byte at its address and no
other, and keeps the form; equal contents are equal data. The canonical form, and the zero an unlisted byte reads as, are
the model's choice (log entry 2). -/
def Obligations.SpacesReadBackWhatIsWritten : Prop :=
  (∀ (m : Memory) (a x : Fin 64) (b : Byte), (m.write a b).read x = if x = a then b else m.read x) ∧
  (∀ (m : Memory) (a : Fin 64) (b : Byte), m.wf = true → (m.write a b).wf = true) ∧
  (∀ m n : Memory, m.wf = true → n.wf = true → m.block = n.block → m = n)

/-! ## The permutation core -/

/-- R106: MIX is a bijection on pairs, with the inverse the rule gives (a rotation right by R is one left by 64 - R). -/
def Obligations.MixIsUndoneByItsInverse : Prop :=
  ∀ (a b : Word) (r : Nat), 0 < r → r < 64 →
    rotl64 ((mix a b r).2 ^^^ (mix a b r).1) (64 - r) = b ∧ (mix a b r).1 - b = a

/-- R103: the subkeys of indices nine apart differ in word 7 alone, by nine. -/
def Obligations.SubkeysNineApartDifferInWordSeven : Prop :=
  ∀ (ks : Vector Word 9) (ts : Vector Word 3) (s : Nat) (i : Fin 8),
    (subkey ks ts (s + 9))[i] = (subkey ks ts s)[i] + if i = 7 then 9 else 0

/-- R109, R106: the all-zero state is a fixed point of `ROUND` for every round. -/
def Obligations.ZeroWordsAreFixedByEveryRound : Prop :=
  ∀ (c : Cfg) (r : Nat), cipherRound c (words8 fun _ => 0) r = words8 fun _ => 0

/-- R112: the two worked examples of the cipher call. -/
def Obligations.WorkedCiphertexts : Prop :=
  e512 Config.sk512 (words8 fun _ => 0) 0 0 (words8 fun _ => 0) =
    #v[0xEA92444942E98B40, 0xAE19AD963EAA9DB1, 0x62A2F8554E1FC4DF, 0x13A74745D5461E6C,
       0x88101ADEF0213BD4, 0xC4D1DAEFADC4D51E, 0xD028FCC868D72C17, 0x3EFE428001DFE9DD] ∧
  e512 Config.sk512
    #v[0x1716151413121110, 0x1F1E1D1C1B1A1918, 0x2726252423222120, 0x2F2E2D2C2B2A2928,
       0x3736353433323130, 0x3F3E3D3C3B3A3938, 0x4746454443424140, 0x4F4E4D4C4B4A4948]
    0x0706050403020100 0x0F0E0D0C0B0A0908
    #v[0xF8F9FAFBFCFDFEFF, 0xF0F1F2F3F4F5F6F7, 0xE8E9EAEBECEDEEEF, 0xE0E1E2E3E4E5E6E7,
       0xD8D9DADBDCDDDEDF, 0xD0D1D2D3D4D5D6D7, 0xC8C9CACBCCCDCECF, 0xC0C1C2C3C4C5C6C7] =
    #v[0x3B1DE51022E19A86, 0x0D40CB2A9F393607, 0x1D2FE6130B6030E2, 0x81D23262146A59F7,
       0x9A1B57657A12BFDF, 0x94836719C7068979, 0xF283FD3851990DC5, 0xF0D250C33B4AA5BF]

/-- R113 (b): for a fixed key and tweak the cipher call is a bijection on eight-word blocks. -/
def Obligations.CipherCallIsABijection : Prop :=
  ∀ (c : Cfg) (k : Words) (t0 t1 : Word), c.wf = true → Function.Bijective (e512 c k t0 t1)

/-- R110: the form without data movement gives the same ciphertext as the normative form, for the word permutation the
pair table stands for. -/
def Obligations.InPlaceFormGivesTheSameCiphertext : Prop :=
  ∀ (c : Cfg) (k : Words) (t0 t1 : Word) (p : Words), c.pi = piDefault →
    e512InPlace c k t0 t1 p = e512 c k t0 t1 p

/-! ## Reset and invariants -/

/-- R230, R38: the engine after reset holds the values of R38, and the effect of `INIT` on it changes nothing; the
machine has no command word presented (log entry 3) and no response given. `BUF` and `DG` are left out: the spec leaves
them unspecified. The words of `IV` and the layout of `T1` are the spec's defaults "from general knowledge" (R8; log
entry 1). -/
def Obligations.ResetIsTheStateInitLeaves : Prop :=
  State.reset.engine.h =
    #v[0xA8D47980544A6E32, 0x847511533E9B1A8A, 0x6FAEE870D8E81A00, 0x58B0D9D6CB557F92,
       0x9BBC0051DAC1D4E9, 0xB744E2B1D189E7CA, 0x979350FA709C5EF3, 0x0350125A92067BCD] ∧
  State.reset.engine.t0 = 0x0000000000000000 ∧ State.reset.engine.t1 = 0x7000000000000000 ∧
  State.reset.engine.bcnt = 0 ∧ State.reset.engine.fin = false ∧ State.reset.engine.err = false ∧
  State.reset.engine.errcode = 0 ∧ State.reset.port = [] ∧ State.reset.responses = [] ∧
  (State.reset.engine.command Config.sk512 .init).1 = State.reset.engine

/-- R230: hardware reset has exactly the effect of `INIT` on the engine, without a response: every piece of state takes
its value of R38, and the engine is in the FRESH phase. No command then tells it from the engine of `State.reset`. -/
def Obligations.HardwareResetIsInitWithoutAResponse : Prop :=
  ∀ s : State,
    s.hardReset.engine = (s.engine.command Config.sk512 .init).1 ∧ s.hardReset.responses = s.responses ∧
    s.hardReset.engine =
      { s.engine with
        h := Config.sk512.iv, t0 := 0, t1 := Config.sk512.t1First ||| Config.sk512.t1TypeMsg
        bcnt := 0, fin := false, err := false, errcode := 0 } ∧
    s.hardReset.engine.phase Config.sk512 = .fresh ∧
    Indistinguishable s.hardReset.engine State.reset.engine

/-- The invariant holds after reset (R38, R37). -/
def Obligations.ResetMeetsTheInvariant : Prop := State.reset.engine.Inv Config.sk512

/-- R24, R27, R37, R166: every step keeps the invariant. -/
def Obligations.StepKeepsTheInvariant : Prop :=
  ∀ s t : State, s.engine.Inv Config.sk512 → step s = .next t → t.engine.Inv Config.sk512

/-- R230, R36: after reset the engine stands for a fresh session. -/
def Obligations.ResetStandsForAFreshSession : Prop :=
  Represents Config.sk512 Session.fresh State.reset.engine

/-- R36, R51, R62, R144, R165: whatever session the engine stands for, a command moves it to the session the lifecycle
gives and answers what the closed form gives. The session knows the message and the fault record and nothing of the
engine. -/
def Obligations.CommandsRefineTheSession : Prop :=
  ∀ (c : Cfg) (a : Session) (e : Engine) (i : Instr), c.wf = true → Represents c a e →
    Represents c (a.command c i).1 (e.command c i).1 ∧ (e.command c i).2 = (a.command c i).2

/-! ## The function of the engine -/

/-- R144: the state after `INIT` and the `ABSORB.B` of a message, in closed form. -/
def Obligations.StateAfterAMessage : Prop :=
  ∀ (c : Cfg) (m : List Byte) (e : Engine), c.wf = true →
    let f := (e.run c (.init :: ingest m)).1
    let p := blocksProcessed m.length
    f.h = streamChain c m p ∧ f.t0 = BitVec.ofNat 64 (64 * p) ∧
    f.t1 = (if p = 0 then messageTweak c else c.t1TypeMsg) ∧ f.bcnt.val = m.length - 64 * p ∧
    (∀ k : Fin 64, k.val < f.bcnt.val → some (f.buf.read k) = m[64 * p + k.val]?) ∧
    f.fin = false ∧ f.err = false ∧ f.errcode = 0

/-- R165, R242: whatever the machine did before, the words of `INIT`, of the `ABSORB.B` of a message and of `DIGEST`,
presented at the port, are answered, and the last response holds the digest of the message in closed form. -/
def Obligations.SessionAnswersTheDigestOfItsMessage : Prop :=
  ∀ (s : State) (m : List Byte), s.port = (Instr.init :: (ingest m ++ [Instr.digest])).map encode →
    ∃ t : State, Host.Core.run core (m.length + 2) s = .next t ∧ t.port = [] ∧
      t.responses.length = s.responses.length + (m.length + 2) ∧
      t.responses.getLast? =
        some { fault := 0, err := false, errcode := 0, data := digestOf Config.sk512 m }

/-- R143: the chunk-level form leaves the same `H`, `T`, `BCNT`, flags and buffered bytes as the run of `ABSORB.B`
commands with the bytes of the chunk, for every state with `FIN = 0` and every chunk. -/
def Obligations.ChunkFormIsTheRunOfItsBytes : Prop :=
  ∀ (c : Cfg) (e : Engine) (ch : List Byte), e.fin = false →
    Indistinguishable (e.ingestChunk c ch) (e.run c (ingest ch)).1

/-- R145: for every way of splitting a byte sequence into ordered pieces, empty ones among them, ingesting the pieces
across separate calls yields the same digest response as a single ingestion, be a call the run of its `ABSORB.B` commands
or the chunk-level form. -/
def Obligations.ChunkBoundariesAreNotObservable : Prop :=
  ∀ (c : Cfg) (e : Engine) (pieces : List (List Byte)), e.fin = false →
    let single := ((e.run c (ingest pieces.flatten)).1.command c .digest).2
    ((pieces.foldl (fun f piece => (f.run c (ingest piece)).1) e).command c .digest).2 = single ∧
    ((pieces.foldl (fun f piece => f.ingestChunk c piece) e).command c .digest).2 = single ∧
    ((e.ingestChunk c pieces.flatten).command c .digest).2 = single

/-! ## What is not observable -/

/-- R26, R28, R166: engines that differ only in what the spec leaves unspecified answer every command alike and stay
so. -/
def Obligations.UnspecifiedBytesAreNeverObserved : Prop :=
  ∀ (c : Cfg) (i : Instr) (e f : Engine), Indistinguishable e f →
    Indistinguishable (e.command c i).1 (f.command c i).1 ∧ (e.command c i).2 = (f.command c i).2

/-- R237, R242: nothing of what came before an `INIT` reaches a later response. -/
def Obligations.InitForgetsThePast : Prop :=
  ∀ (c : Cfg) (is : List Instr) (e f : Engine), (e.run c (.init :: is)).2 = (f.run c (.init :: is)).2

/-- R241, R113 (d): what a command does is decided by its opcode, `FIN` and `BCNT`, never by the message byte or the value
of any word: they alone decide the next `FIN` and `BCNT`, the fault code and the number of data bytes. The fault record
after the command, which the response carries, depends on nothing else but the fault record before it, and `T0` and `T1`
each on nothing else but their own value before it. -/
def Obligations.ControlIgnoresTheData : Prop :=
  ∀ (c : Cfg) (i j : Instr) (e f : Engine), i.opcode = j.opcode → e.control = f.control →
    (e.command c i).1.control = (f.command c j).1.control ∧
    (e.command c i).2.fault = (f.command c j).2.fault ∧
    (e.command c i).2.data.length = (f.command c j).2.data.length ∧
    (e.faultRecord = f.faultRecord →
      (e.command c i).1.faultRecord = (f.command c j).1.faultRecord ∧
      (e.command c i).2.err = (f.command c j).2.err ∧ (e.command c i).2.errcode = (f.command c j).2.errcode) ∧
    (e.t0 = f.t0 → (e.command c i).1.t0 = (f.command c j).1.t0) ∧
    (e.t1 = f.t1 → (e.command c i).1.t1 = (f.command c j).1.t1)

/-! ## The host layer -/

/-- R183, R184: the bytes of a fixed-width value are its little-endian digits: as many as its width has bytes, and their
little-endian sum is the value or its bit pattern. So are those of an unsigned operand in range, 1, 2, 4 or 8 bytes, and
those of a binary32 or binary64 pattern. -/
def Obligations.TypedValuesAreLittleEndian : Prop :=
  (∀ (n : Nat) (v : BitVec (8 * n)),
    (leBytes n v).length = n ∧ (leBytes n v).foldr (fun b acc => b.toNat + 256 * acc) 0 = v.toNat) ∧
  (∀ (c : Cfg) (v : Nat) (p : Pseudo) (n : Nat),
    (p, n) ∈ [(Pseudo.ingestU8 v, 1), (.ingestU16 v, 2), (.ingestU32 v, 4), (.ingestU64 v, 8)] → p.wf = true →
    (p.bytes c).length = n ∧ (p.bytes c).foldr (fun b acc => b.toNat + 256 * acc) 0 = v) ∧
  (∀ (c : Cfg) (v : BitVec 32), ((Pseudo.ingestF32 v).bytes c).length = 4 ∧
    ((Pseudo.ingestF32 v).bytes c).foldr (fun b acc => b.toNat + 256 * acc) 0 = v.toNat) ∧
  (∀ (c : Cfg) (v : BitVec 64), ((Pseudo.ingestF64 v).bytes c).length = 8 ∧
    ((Pseudo.ingestF64 v).bytes c).foldr (fun b acc => b.toNat + 256 * acc) 0 = v.toNat)

/-- R181, R182, R185: the bytes of `INGEST.BYTES` and of an encoded text are the bytes themselves, and a boolean is one
byte, `BOOL_TRUE` or `BOOL_FALSE`. R180, R187: every `INGEST.*` expands to one `ABSORB.B` per byte, in order, and
`DIGEST.HEX` to `DIGEST`. -/
def Obligations.PlainValuesAreTheirOwnBytes : Prop :=
  ∀ c : Cfg,
    (∀ b : List Byte, (Pseudo.ingestBytes b).bytes c = b ∧ (Pseudo.ingestText b).bytes c = b) ∧
    (Pseudo.ingestBool true).bytes c = [c.boolTrue] ∧ (Pseudo.ingestBool false).bytes c = [c.boolFalse] ∧
    (∀ p : Pseudo, p ≠ .digestHex → p.expand c = (p.bytes c).map Instr.absorbB) ∧
    Pseudo.digestHex.expand c = [.digest]

/-- R183: a signed operand in range is sent as its two's complement bit pattern, of 1, 2, 4 or 8 bytes. -/
def Obligations.SignedValuesAreTwosComplement : Prop :=
  ∀ (c : Cfg) (v : Int) (p : Pseudo) (w : Nat),
    (p, w) ∈ [(Pseudo.ingestI8 v, 8), (.ingestI16 v, 16), (.ingestI32 v, 32), (.ingestI64 v, 64)] → p.wf = true →
    (p.bytes c).length * 8 = w ∧
    (((p.bytes c).foldr (fun b acc => b.toNat + 256 * acc) 0 : Nat) : Int) = if v < 0 then v + 2 ^ w else v

/-- R180: with `FIN = 1` every command of an `INGEST.*` expansion faults with `UseAfterFinalize` and the engine keeps
everything but the fault record; an empty expansion does nothing at all. -/
def Obligations.ExpansionAfterDigestOnlyFaults : Prop :=
  ∀ (c : Cfg) (p : Pseudo) (e : Engine), p ≠ .digestHex → e.fin = true →
    (∀ r ∈ (e.run c (p.expand c)).2, r.fault = 1) ∧
    (e.run c (p.expand c)).2.length = (p.bytes c).length ∧
    (e.run c (p.expand c)).1 =
      if p.bytes c = [] then e else { e with err := true, errcode := if e.err then e.errcode else 1 }

/-- R180, R185, R236: an expansion sends the bytes of its value and nothing else, so a sequence of typed values is the
same commands as `INGEST.BYTES` of the joined bytes. -/
def Obligations.TypedSequenceIsItsFlatBytes : Prop :=
  ∀ (c : Cfg) (ps : List Pseudo), (∀ p ∈ ps, p ≠ .digestHex) →
    ps.flatMap (Pseudo.expand c) = Pseudo.expand c (.ingestBytes (ps.flatMap (Pseudo.bytes c)))

/-- R187, R188: hex of the digest response has 128 characters, all of them `0-9a-f`, and decodes back to the digest. -/
def Obligations.HexOfTheDigestRoundTrips : Prop :=
  ∀ (c : Cfg) (e : Engine),
    let d := (e.command c .digest).2.data
    unhex (hexString d) = some d ∧ (hexString d).length = 128 ∧
    ∀ ch ∈ hexString d, ('0' ≤ ch ∧ ch ≤ '9') ∨ ('a' ≤ ch ∧ ch ≤ 'f')
end

