-- ==== Sys2Proof/Laws/Bytes.lean ====
section
/-! SUPPORT. The laws of the conversions between bytes and words (00_scope.md R15). -/

namespace Sys2Proof.Machine

@[simp] theorem words8_get (f : Fin 8 → Word) (i : Fin 8) : (words8 f)[i.val] = f i := by
  fin_cases i <;> rfl

/-- Two eight-word arrays with equal words are equal. -/
theorem words_ext {x y : Words} (h : ∀ i : Fin 8, x[i] = y[i]) : x = y :=
  Vector.ext fun i hi => h ⟨i, hi⟩

theorem byteAddr_split (a : Fin 64) : byteAddr (wordOfAddr a) (byteOfAddr a) = a :=
  Fin.ext (Nat.div_add_mod a.val 8)

theorem byteAddr_inj {i j k l : Fin 8} (h : byteAddr i k = byteAddr j l) : i = j ∧ k = l := by
  simp only [byteAddr, Fin.mk.injEq] at h
  exact ⟨Fin.ext (by omega), Fin.ext (by omega)⟩

@[simp] theorem wordOfAddr_byteAddr (i k : Fin 8) : wordOfAddr (byteAddr i k) = i :=
  (byteAddr_inj (byteAddr_split (byteAddr i k))).1

@[simp] theorem byteOfAddr_byteAddr (i k : Fin 8) : byteOfAddr (byteAddr i k) = k :=
  (byteAddr_inj (byteAddr_split (byteAddr i k))).2

/-- Bit `n` of `LE64(b)` is bit `n mod 8` of byte `floor(n / 8)`. -/
theorem le64_getLsbD (b : Fin 8 → Byte) (k : Fin 8) (j : Nat) (hj : j < 8) :
    (le64 b).getLsbD (8 * k.val + j) = (b k).getLsbD j := by
  change BitVec.getLsbD (w := 8 + 8 + 8 + 8 + 8 + 8 + 8 + 8)
    (b 7 ++ b 6 ++ b 5 ++ b 4 ++ b 3 ++ b 2 ++ b 1 ++ b 0) (8 * k.val + j) = _
  simp only [BitVec.getLsbD_append]
  fin_cases k <;> simp <;> repeat' (split <;> try omega)
  all_goals (congr 1; try omega)

/-- Byte `k` of `LE64(b)` is `b[k]`. -/
@[simp] theorem byteOf_le64 (b : Fin 8 → Byte) (k : Fin 8) : byteOf (le64 b) k = b k := by
  apply BitVec.eq_of_getLsbD_eq
  intro j hj
  rw [byteOf, BitVec.getLsbD_extractLsb', le64_getLsbD b k j hj]
  simp [hj]

/-- `LE64` of the bytes of a word is the word. -/
@[simp] theorem le64_byteOf (w : Word) : le64 (byteOf w) = w := by
  apply BitVec.eq_of_getLsbD_eq
  intro n hn
  have h := le64_getLsbD (byteOf w) ⟨n / 8, by omega⟩ (n % 8) (by omega)
  rw [Nat.div_add_mod n 8] at h
  rw [h, byteOf, BitVec.getLsbD_extractLsb', Nat.div_add_mod n 8]
  simp [Nat.mod_lt]

/-- The words of the bytes of eight words are the words (R15). -/
theorem blockToWords_wordsToBytes (w : Words) : blockToWords (wordsToBytes w) = w :=
  words_ext fun i => by
    simp only [blockToWords, wordsToBytes, Fin.getElem_fin, words8_get, wordOfAddr_byteAddr, byteOfAddr_byteAddr]
    exact le64_byteOf _

/-- The bytes of the words of a block are the block (R15, R55). -/
theorem wordsToBytes_blockToWords (b : Block) : wordsToBytes (blockToWords b) = b :=
  funext fun a => by simp [blockToWords, wordsToBytes, byteAddr_split]

@[simp] theorem blockBytes_length (b : Block) : (blockBytes b).length = 64 := by simp [blockBytes]

@[simp] theorem blockBytes_getElem (b : Block) (a : Fin 64) : (blockBytes b)[a.val]? = some (b a) := by
  simp [blockBytes]

end Sys2Proof.Machine
end

