-- ==== Sys2Proof/Laws/Memory.lean ====
section
/-! SUPPORT. The laws of the byte spaces: a read after a write, the canonical form kept by every operation, and equal
contents of canonical spaces as equal data. -/

namespace Sys2Proof.Machine

/-! ## One byte -/

theorem Memory.lookup_erase (m : Memory) (a x : Nat) :
    Memory.lookup (m.erase a) x = if x = a then Memory.unlisted else Memory.lookup m x := by
  induction m with
  | nil => simp [Memory.erase, Memory.lookup]
  | cons p rest ih =>
    obtain ⟨k, v⟩ := p
    by_cases hk : k = a
    · rw [Memory.erase, if_pos hk, ih]
      by_cases hx : x = a
      · rw [if_pos hx, if_pos hx]
      · rw [if_neg hx, if_neg hx, Memory.lookup, if_neg fun e => hx (e.symm.trans hk)]
    · rw [Memory.erase, if_neg hk, Memory.lookup, ih, Memory.lookup]
      by_cases hx : x = a
      · rw [if_pos hx, if_pos hx, if_neg fun e => hk (e.trans hx)]
      · rw [if_neg hx, if_neg hx]

theorem Memory.lookup_place (m : Memory) (a x : Nat) (b : Byte) (hm : Memory.lookup m a = Memory.unlisted)
    (hno : ∀ p ∈ m, p.1 ≠ a) :
    Memory.lookup (Memory.place m a b) x = if x = a then b else Memory.lookup m x := by
  induction m with
  | nil =>
    simp only [Memory.place, Memory.lookup, eq_comm (a := a)]
  | cons p rest ih =>
    obtain ⟨k, v⟩ := p
    have hk : k ≠ a := hno (k, v) (by simp)
    rw [Memory.place]
    by_cases h : a < k
    · rw [if_pos h, Memory.lookup]
      by_cases hx : x = a
      · rw [if_pos hx.symm, if_pos hx]
      · rw [if_neg fun e => hx e.symm, if_neg hx]
    · rw [Memory.lookup, if_neg hk] at hm
      rw [if_neg h, Memory.lookup, ih hm fun p hp => hno p (List.mem_cons_of_mem _ hp), Memory.lookup]
      by_cases hx : x = a
      · rw [if_neg fun e => hk (e.trans hx), if_pos hx, if_pos hx]
      · rw [if_neg hx, if_neg hx]

theorem Memory.erase_no_entry (m : Memory) (a : Nat) : ∀ p ∈ m.erase a, p.1 ≠ a := by
  induction m with
  | nil => simp [Memory.erase]
  | cons q rest ih =>
    obtain ⟨k, v⟩ := q
    by_cases hk : k = a
    · simpa [Memory.erase, hk] using ih
    · simpa [Memory.erase, hk] using ih

/-- A lookup after an insertion, in a list of any form. -/
theorem Memory.lookup_insert (m : Memory) (a x : Nat) (b : Byte) :
    Memory.lookup (Memory.insert m a b) x = if x = a then b else Memory.lookup m x := by
  unfold Memory.insert
  by_cases hb : b = Memory.unlisted
  · rw [if_pos hb, Memory.lookup_erase, hb]
  · rw [if_neg hb, Memory.lookup_place _ _ _ _ (by rw [Memory.lookup_erase, if_pos rfl])
      (Memory.erase_no_entry m a), Memory.lookup_erase]
    by_cases hx : x = a
    · rw [if_pos hx, if_pos hx]
    · rw [if_neg hx, if_neg hx, if_neg hx]

theorem Memory.wfFrom_cons {lo k : Nat} {v : Byte} {rest : Memory} :
    Memory.wfFrom lo ((k, v) :: rest) = true ↔
      lo ≤ k ∧ k < 64 ∧ v ≠ Memory.unlisted ∧ Memory.wfFrom (k + 1) rest = true := by
  simp only [Memory.wfFrom, Bool.and_eq_true, decide_eq_true_eq, bne_iff_ne, and_assoc]

theorem Memory.wfFrom_mono {m : Memory} {lo lo' : Nat} (h : Memory.wfFrom lo m = true) (hl : lo' ≤ lo) :
    Memory.wfFrom lo' m = true := by
  cases m with
  | nil => rfl
  | cons p rest =>
    obtain ⟨k, v⟩ := p
    rw [Memory.wfFrom_cons] at h ⊢
    exact ⟨by omega, h.2⟩

theorem Memory.wfFrom_erase {m : Memory} {lo : Nat} (h : Memory.wfFrom lo m = true) (a : Nat) :
    Memory.wfFrom lo (m.erase a) = true := by
  induction m generalizing lo with
  | nil => rfl
  | cons p rest ih =>
    obtain ⟨k, v⟩ := p
    rw [Memory.wfFrom_cons] at h
    rw [Memory.erase]
    by_cases hk : k = a
    · rw [if_pos hk]
      exact Memory.wfFrom_mono (ih h.2.2.2) (by omega)
    · rw [if_neg hk, Memory.wfFrom_cons]
      exact ⟨h.1, h.2.1, h.2.2.1, ih h.2.2.2⟩

theorem Memory.wfFrom_place {m : Memory} {lo a : Nat} {b : Byte} (h : Memory.wfFrom lo m = true)
    (hno : ∀ p ∈ m, p.1 ≠ a) (ha : a < 64) (hlo : lo ≤ a) (hb : b ≠ Memory.unlisted) :
    Memory.wfFrom lo (Memory.place m a b) = true := by
  induction m generalizing lo with
  | nil =>
    rw [Memory.place, Memory.wfFrom_cons]
    exact ⟨hlo, ha, hb, rfl⟩
  | cons p rest ih =>
    obtain ⟨k, v⟩ := p
    have hk : k ≠ a := hno (k, v) (by simp)
    rw [Memory.wfFrom_cons] at h
    rw [Memory.place]
    by_cases hlt : a < k
    · rw [if_pos hlt, Memory.wfFrom_cons, Memory.wfFrom_cons]
      exact ⟨hlo, ha, hb, by omega, h.2⟩
    · rw [if_neg hlt, Memory.wfFrom_cons]
      exact ⟨h.1, h.2.1, h.2.2.1, ih h.2.2.2 (fun p hp => hno p (List.mem_cons_of_mem _ hp)) (by omega)⟩

theorem Memory.lookup_of_wfFrom_lt {m : Memory} {lo a : Nat} (h : Memory.wfFrom lo m = true) (ha : a < lo) :
    Memory.lookup m a = Memory.unlisted := by
  induction m generalizing lo with
  | nil => rfl
  | cons p rest ih =>
    obtain ⟨k, v⟩ := p
    rw [Memory.wfFrom_cons] at h
    rw [Memory.lookup, if_neg (by omega)]
    exact ih h.2.2.2 (by omega)

/-- A read after a write: the byte written at its address, every other byte as before. -/
theorem Memory.read_write (m : Memory) (a x : Fin 64) (b : Byte) :
    (m.write a b).read x = if x = a then b else m.read x := by
  simpa [Memory.read, Memory.write, Fin.ext_iff] using Memory.lookup_insert m a.val x.val b

/-- A write keeps the canonical form. -/
theorem Memory.write_wf {m : Memory} (h : m.wf = true) (a : Fin 64) (b : Byte) : (m.write a b).wf = true := by
  unfold Memory.write Memory.insert
  by_cases hb : b = Memory.unlisted
  · rw [if_pos hb]
    exact Memory.wfFrom_erase h _
  · rw [if_neg hb]
    exact Memory.wfFrom_place (Memory.wfFrom_erase h _) (Memory.erase_no_entry m _) a.isLt (Nat.zero_le _) hb

theorem Memory.nil_wf : Memory.wf [] = true := rfl

theorem Memory.read_nil (a : Fin 64) : Memory.read [] a = 0 := rfl

theorem Memory.eq_of_lookup_eq {m n : Memory} {lo : Nat} (hm : Memory.wfFrom lo m = true)
    (hn : Memory.wfFrom lo n = true) (h : ∀ a, a < 64 → Memory.lookup m a = Memory.lookup n a) : m = n := by
  induction m generalizing n lo with
  | nil =>
    cases n with
    | nil => rfl
    | cons p rest =>
      obtain ⟨k, v⟩ := p
      simp only [Memory.wfFrom, Bool.and_eq_true, decide_eq_true_eq, bne_iff_ne] at hn
      have := h k hn.1.1.2
      simp [Memory.lookup] at this
      exact absurd this.symm hn.1.2
  | cons p rest ih =>
    obtain ⟨k, v⟩ := p
    simp only [Memory.wfFrom, Bool.and_eq_true, decide_eq_true_eq, bne_iff_ne] at hm
    cases n with
    | nil =>
      have := h k hm.1.1.2
      simp [Memory.lookup] at this
      exact absurd this hm.1.2
    | cons q rest' =>
      obtain ⟨k', v'⟩ := q
      simp only [Memory.wfFrom, Bool.and_eq_true, decide_eq_true_eq, bne_iff_ne] at hn
      have hkk : k = k' := by
        rcases Nat.lt_trichotomy k k' with hlt | heq | hgt
        · have e := h k hm.1.1.2
          have hne : k' ≠ k := by omega
          rw [Memory.lookup, Memory.lookup, if_pos rfl, if_neg hne,
            Memory.lookup_of_wfFrom_lt hn.2 (by omega)] at e
          exact absurd e hm.1.2
        · exact heq
        · have e := h k' hn.1.1.2
          have hne : k ≠ k' := by omega
          rw [Memory.lookup, Memory.lookup, if_neg hne, if_pos rfl,
            Memory.lookup_of_wfFrom_lt hm.2 (by omega)] at e
          exact absurd e.symm hn.1.2
      subst hkk
      have hv : v = v' := by simpa [Memory.lookup] using h k hm.1.1.2
      subst hv
      congr 1
      refine ih hm.2 hn.2 fun a ha => ?_
      by_cases hak : a ≤ k
      · rw [Memory.lookup_of_wfFrom_lt hm.2 (by omega), Memory.lookup_of_wfFrom_lt hn.2 (by omega)]
      · have hne : k ≠ a := by omega
        simpa [Memory.lookup, hne] using h a ha

/-- Canonical spaces with equal contents are equal data. -/
theorem Memory.eq_of_read_eq {m n : Memory} (hm : m.wf = true) (hn : n.wf = true)
    (h : ∀ a, m.read a = n.read a) : m = n :=
  Memory.eq_of_lookup_eq hm hn fun a ha => h ⟨a, ha⟩

/-! ## Folds of writes -/

/-- A fold of writes over a list of places keeps the canonical form. -/
theorem Memory.foldl_write_wf {ι : Type} (l : List ι) (addr : ι → Fin 64) (byte : ι → Byte) {m : Memory}
    (h : m.wf = true) : (l.foldl (fun m i => m.write (addr i) (byte i)) m).wf = true := by
  induction l generalizing m with
  | nil => exact h
  | cons i rest ih => exact ih (Memory.write_wf h _ _)

theorem Memory.foldl_write_word (l : List (Fin 8)) (i : Fin 8) (v : Word) (m : Memory) (a : Fin 64) :
    (l.foldl (fun m k => m.write (byteAddr i k) (byteOf v k)) m).read a =
      if wordOfAddr a = i ∧ byteOfAddr a ∈ l then byteOf v (byteOfAddr a) else m.read a := by
  induction l generalizing m with
  | nil => simp
  | cons k rest ih =>
    rw [List.foldl_cons, ih, Memory.read_write]
    by_cases hi : wordOfAddr a = i
    · by_cases hr : byteOfAddr a ∈ rest
      · simp [hi, hr]
      · by_cases hk : byteOfAddr a = k
        · have : a = byteAddr i k := by rw [← hi, ← hk, byteAddr_split]
          simp [this, byteOfAddr_byteAddr, wordOfAddr_byteAddr]
        · have : a ≠ byteAddr i k := fun e => hk (by rw [e, byteOfAddr_byteAddr])
          simp [hi, hr, hk, this]
    · have : a ≠ byteAddr i k := fun e => hi (by rw [e, wordOfAddr_byteAddr])
      simp [hi, this]

/-- A word write: its eight bytes, little-endian; every other byte as before (R16). -/
theorem Memory.read_writeWord (m : Memory) (i : Fin 8) (v : Word) (a : Fin 64) :
    (m.writeWord i v).read a = if wordOfAddr a = i then byteOf v (byteOfAddr a) else m.read a := by
  unfold Memory.writeWord
  rw [Memory.foldl_write_word]
  simp only [List.mem_finRange, and_true]

theorem Memory.writeWord_wf {m : Memory} (h : m.wf = true) (i : Fin 8) (v : Word) : (m.writeWord i v).wf = true :=
  Memory.foldl_write_wf _ _ _ h

theorem Memory.foldl_writeWord (l : List (Fin 8)) (v : Words) (m : Memory) (a : Fin 64) :
    (l.foldl (fun m i => m.writeWord i v[i]) m).read a =
      if wordOfAddr a ∈ l then byteOf v[wordOfAddr a] (byteOfAddr a) else m.read a := by
  induction l generalizing m with
  | nil => simp
  | cons i rest ih =>
    rw [List.foldl_cons, ih, Memory.read_writeWord]
    by_cases hi : wordOfAddr a = i
    · simp [hi]
    · simp [hi]

/-- Writing the eight words leaves exactly `WORDS_TO_BYTES` of them (R162). -/
theorem Memory.block_writeWords (m : Memory) (v : Words) : (m.writeWords v).block = wordsToBytes v := by
  funext a
  unfold Memory.block Memory.writeWords
  rw [Memory.foldl_writeWord, if_pos (List.mem_finRange _), wordsToBytes]

theorem Memory.writeWords_wf {m : Memory} (h : m.wf = true) (v : Words) : (m.writeWords v).wf = true := by
  unfold Memory.writeWords
  generalize List.finRange 8 = l
  induction l generalizing m with
  | nil => exact h
  | cons i rest ih => exact ih (Memory.writeWord_wf h i _)

theorem Memory.foldl_zero (l : List (Fin 64)) (n : Nat) (m : Memory) (x : Fin 64) :
    (l.foldl (fun m a => if n ≤ a.val then Memory.write m a 0x00 else m) m).read x =
      if x ∈ l ∧ n ≤ x.val then 0 else m.read x := by
  induction l generalizing m with
  | nil => simp
  | cons i rest ih =>
    rw [List.foldl_cons, ih]
    by_cases hn : n ≤ i.val
    · rw [if_pos hn, Memory.read_write]
      by_cases hx : x = i
      · simp [hx, hn]
      · simp [hx]
    · rw [if_neg hn]
      by_cases hx : x = i
      · simp [hx, hn]
      · simp [hx]

/-- The zero padding: zeros from address `n` on, the bytes before it as they were (R160). -/
theorem Memory.read_zeroFrom (m : Memory) (n : Nat) (a : Fin 64) :
    (m.zeroFrom n).read a = if n ≤ a.val then 0 else m.read a := by
  unfold Memory.zeroFrom
  rw [Memory.foldl_zero]
  simp only [List.mem_finRange, true_and]

theorem Memory.zeroFrom_wf {m : Memory} (h : m.wf = true) (n : Nat) : (m.zeroFrom n).wf = true := by
  unfold Memory.zeroFrom
  generalize List.finRange 64 = l
  induction l generalizing m with
  | nil => exact h
  | cons a rest ih =>
    rw [List.foldl_cons]
    by_cases hn : n ≤ a.val
    · rw [if_pos hn]
      exact ih (Memory.write_wf h _ _)
    · rw [if_neg hn]
      exact ih h

/-- The word at `8i` of a space is the word `i` of its block (R57, R132). -/
theorem Memory.readWord_eq (m : Memory) (i : Fin 8) : m.readWord i = (blockToWords m.block)[i] := by
  fin_cases i <;> rfl

end Sys2Proof.Machine
end

