-- ==== Sys2Proof/Laws/State.lean ====
section
/-! SUPPORT. One lemma per field per update of the state and of the engine. -/

namespace Sys2Proof.Machine

/-! ## The port and the responses -/

@[simp] theorem State.complete_engine (s : State) (r : Engine × Response) : (s.complete r).engine = r.1 := rfl
@[simp] theorem State.complete_port (s : State) (r : Engine × Response) : (s.complete r).port = s.port := rfl
@[simp] theorem State.complete_responses (s : State) (r : Engine × Response) :
    (s.complete r).responses = s.responses ++ [r.2] := rfl

@[simp] theorem State.present_engine (s : State) (w : CmdWord) : (s.present w).engine = s.engine := rfl
@[simp] theorem State.present_port (s : State) (w : CmdWord) : (s.present w).port = w :: s.port := rfl
@[simp] theorem State.present_responses (s : State) (w : CmdWord) : (s.present w).responses = s.responses := rfl
@[simp] theorem State.takeCommand_present (s : State) (w : CmdWord) : (s.present w).takeCommand = some (w, s) := rfl

@[simp] theorem Engine.respond_fault (e : Engine) (k : BitVec 2) (d : List Byte) : (e.respond k d).fault = k := rfl
@[simp] theorem Engine.respond_err (e : Engine) (k : BitVec 2) (d : List Byte) : (e.respond k d).err = e.err := rfl
@[simp] theorem Engine.respond_errcode (e : Engine) (k : BitVec 2) (d : List Byte) :
    (e.respond k d).errcode = e.errcode := rfl
@[simp] theorem Engine.respond_data (e : Engine) (k : BitVec 2) (d : List Byte) : (e.respond k d).data = d := rfl

/-! ## `INIT` -/

@[simp] theorem Engine.construct_h (c : Cfg) (e : Engine) : (e.construct c).h = c.iv := rfl
@[simp] theorem Engine.construct_t0 (c : Cfg) (e : Engine) : (e.construct c).t0 = 0 := rfl
@[simp] theorem Engine.construct_t1 (c : Cfg) (e : Engine) : (e.construct c).t1 = messageTweak c := rfl
@[simp] theorem Engine.construct_buf (c : Cfg) (e : Engine) : (e.construct c).buf = e.buf := rfl
@[simp] theorem Engine.construct_bcnt (c : Cfg) (e : Engine) : (e.construct c).bcnt = 0 := rfl
@[simp] theorem Engine.construct_dg (c : Cfg) (e : Engine) : (e.construct c).dg = e.dg := rfl
@[simp] theorem Engine.construct_fin (c : Cfg) (e : Engine) : (e.construct c).fin = false := rfl
@[simp] theorem Engine.construct_err (c : Cfg) (e : Engine) : (e.construct c).err = false := rfl
@[simp] theorem Engine.construct_errcode (c : Cfg) (e : Engine) : (e.construct c).errcode = 0 := rfl

/-! ## The block processor -/

@[simp] theorem Engine.ubiBlock_h (c : Cfg) (b : Block) (n : Nat) (e : Engine) :
    (e.ubiBlock c b n).h =
      feedForward (e512 c e.h (e.t0 + BitVec.ofNat 64 n) e.t1 (blockToWords b)) (blockToWords b) := rfl
@[simp] theorem Engine.ubiBlock_t0 (c : Cfg) (b : Block) (n : Nat) (e : Engine) :
    (e.ubiBlock c b n).t0 = e.t0 + BitVec.ofNat 64 n := rfl
@[simp] theorem Engine.ubiBlock_t1 (c : Cfg) (b : Block) (n : Nat) (e : Engine) :
    (e.ubiBlock c b n).t1 = clearFirst c e.t1 := rfl
@[simp] theorem Engine.ubiBlock_buf (c : Cfg) (b : Block) (n : Nat) (e : Engine) :
    (e.ubiBlock c b n).buf = e.buf := rfl
@[simp] theorem Engine.ubiBlock_bcnt (c : Cfg) (b : Block) (n : Nat) (e : Engine) :
    (e.ubiBlock c b n).bcnt = e.bcnt := rfl
@[simp] theorem Engine.ubiBlock_dg (c : Cfg) (b : Block) (n : Nat) (e : Engine) : (e.ubiBlock c b n).dg = e.dg := rfl
@[simp] theorem Engine.ubiBlock_fin (c : Cfg) (b : Block) (n : Nat) (e : Engine) :
    (e.ubiBlock c b n).fin = e.fin := rfl
@[simp] theorem Engine.ubiBlock_err (c : Cfg) (b : Block) (n : Nat) (e : Engine) :
    (e.ubiBlock c b n).err = e.err := rfl
@[simp] theorem Engine.ubiBlock_errcode (c : Cfg) (b : Block) (n : Nat) (e : Engine) :
    (e.ubiBlock c b n).errcode = e.errcode := rfl

/-! ## The store of a byte -/

@[simp] theorem Engine.storeByte_h (d : Byte) (e : Engine) : (e.storeByte d).h = e.h := rfl
@[simp] theorem Engine.storeByte_t0 (d : Byte) (e : Engine) : (e.storeByte d).t0 = e.t0 := rfl
@[simp] theorem Engine.storeByte_t1 (d : Byte) (e : Engine) : (e.storeByte d).t1 = e.t1 := rfl
@[simp] theorem Engine.storeByte_buf (d : Byte) (e : Engine) :
    (e.storeByte d).buf = e.buf.write e.storeAddr d := rfl
@[simp] theorem Engine.storeByte_bcnt_val (d : Byte) (e : Engine) :
    (e.storeByte d).bcnt.val = e.storeAddr.val + 1 := rfl
@[simp] theorem Engine.storeByte_dg (d : Byte) (e : Engine) : (e.storeByte d).dg = e.dg := rfl
@[simp] theorem Engine.storeByte_fin (d : Byte) (e : Engine) : (e.storeByte d).fin = e.fin := rfl
@[simp] theorem Engine.storeByte_err (d : Byte) (e : Engine) : (e.storeByte d).err = e.err := rfl
@[simp] theorem Engine.storeByte_errcode (d : Byte) (e : Engine) : (e.storeByte d).errcode = e.errcode := rfl

/-! ## The cached digest -/

@[simp] theorem Engine.cacheDigest_h (e : Engine) : e.cacheDigest.h = e.h := rfl
@[simp] theorem Engine.cacheDigest_t0 (e : Engine) : e.cacheDigest.t0 = e.t0 := rfl
@[simp] theorem Engine.cacheDigest_t1 (e : Engine) : e.cacheDigest.t1 = e.t1 := rfl
@[simp] theorem Engine.cacheDigest_buf (e : Engine) : e.cacheDigest.buf = e.buf := rfl
@[simp] theorem Engine.cacheDigest_bcnt (e : Engine) : e.cacheDigest.bcnt = e.bcnt := rfl
@[simp] theorem Engine.cacheDigest_dg (e : Engine) : e.cacheDigest.dg = e.dg.writeWords e.h := rfl
@[simp] theorem Engine.cacheDigest_fin (e : Engine) : e.cacheDigest.fin = true := rfl
@[simp] theorem Engine.cacheDigest_err (e : Engine) : e.cacheDigest.err = e.err := rfl
@[simp] theorem Engine.cacheDigest_errcode (e : Engine) : e.cacheDigest.errcode = e.errcode := rfl

end Sys2Proof.Machine
end

