-- ==== Sys2Proof/Laws/Commands.lean ====
section
/-! SUPPORT. One lemma per shared operation and per command that says once what it does; later proofs cite these and
do not unfold the operations. -/

namespace Sys2Proof.Machine

/-! ## Faults -/

/-- What a fault leaves: the fault record, set once, and nothing else (R203). -/
theorem Engine.recordFault_eq (k : FaultKind) (e : Engine) :
    e.recordFault k = { e with err := true, errcode := if e.err then e.errcode else k.code } := by
  cases he : e.err
  · simp [Engine.recordFault, he]
  · cases e
    simp_all [Engine.recordFault]

/-- A faulting command, whole (R203). -/
theorem Engine.raise_eq (k : FaultKind) (e : Engine) :
    e.raise k =
      ({ e with err := true, errcode := if e.err then e.errcode else k.code },
       { fault := k.code, err := true, errcode := if e.err then e.errcode else k.code, data := [] }) := by
  simp only [Engine.raise, Engine.recordFault_eq k e, Engine.respond]

/-! ## `ABSORB.B` -/

theorem Engine.makeRoom_full (c : Cfg) {e : Engine} (h : e.bcnt.val = 64) :
    e.makeRoom c = { e.ubiBlock c e.buf.block 64 with bcnt := 0 } := by
  simp [Engine.makeRoom, h]

theorem Engine.makeRoom_room (c : Cfg) {e : Engine} (h : e.bcnt.val < 64) : e.makeRoom c = e := by
  have : e.bcnt.val ≠ 64 := by omega
  simp [Engine.makeRoom, this]

/-- The store of `ABSORB.B` is inside the space: `BCNT <= 63` there (R50). -/
theorem Engine.makeRoom_bcnt_lt (c : Cfg) (e : Engine) : (e.makeRoom c).bcnt.val < 64 := by
  by_cases h : e.bcnt.val = 64
  · simp [Engine.makeRoom_full c h]
  · have h' : e.bcnt.val < 64 := by omega
    rwa [Engine.makeRoom_room c h']

theorem Engine.storeAddr_val {e : Engine} (h : e.bcnt.val < 64) : e.storeAddr.val = e.bcnt.val :=
  Nat.mod_eq_of_lt h

/-- The address a byte is stored to is the same before and after room is made (R141). -/
theorem Engine.makeRoom_storeAddr (c : Cfg) (e : Engine) : (e.makeRoom c).storeAddr = e.storeAddr := by
  by_cases h : e.bcnt.val = 64
  · rw [Engine.makeRoom_full c h]
    exact Fin.ext (by simp [Engine.storeAddr, h])
  · rw [Engine.makeRoom_room c (by omega)]

@[simp] theorem Engine.makeRoom_buf (c : Cfg) (e : Engine) : (e.makeRoom c).buf = e.buf := by
  unfold Engine.makeRoom; split <;> rfl
@[simp] theorem Engine.makeRoom_dg (c : Cfg) (e : Engine) : (e.makeRoom c).dg = e.dg := by
  unfold Engine.makeRoom; split <;> rfl
@[simp] theorem Engine.makeRoom_fin (c : Cfg) (e : Engine) : (e.makeRoom c).fin = e.fin := by
  unfold Engine.makeRoom; split <;> rfl
@[simp] theorem Engine.makeRoom_err (c : Cfg) (e : Engine) : (e.makeRoom c).err = e.err := by
  unfold Engine.makeRoom; split <;> rfl
@[simp] theorem Engine.makeRoom_errcode (c : Cfg) (e : Engine) : (e.makeRoom c).errcode = e.errcode := by
  unfold Engine.makeRoom; split <;> rfl

theorem Engine.absorbCmd_fin {e : Engine} (c : Cfg) (d : Byte) (h : e.fin = true) :
    e.absorbCmd c d = e.raise .useAfterFinalize := by simp [Engine.absorbCmd, h]

theorem Engine.absorbCmd_open {e : Engine} (c : Cfg) (d : Byte) (h : e.fin = false) :
    e.absorbCmd c d = (e.absorb c d, { fault := 0, err := e.err, errcode := e.errcode, data := [] }) := by
  simp [Engine.absorbCmd, h, Engine.absorb, Engine.respond, noFault]

/-- `BUF` after `ABSORB.B`: the byte at the store address, every other byte as before. -/
theorem Engine.absorb_buf_read (c : Cfg) (d : Byte) (e : Engine) (a : Fin 64) :
    (e.absorb c d).buf.read a = if a = e.storeAddr then d else e.buf.read a := by
  rw [Engine.absorb, Engine.storeByte_buf, Memory.read_write, Engine.makeRoom_storeAddr, Engine.makeRoom_buf]

/-! ## `DIGEST` -/

/-- The block `FINALIZE` step 1 processes is the padded one (R160). -/
theorem Memory.block_zeroFrom (e : Engine) : (e.buf.zeroFrom e.bcnt.val).block = e.paddedBlock := by
  funext a
  rw [Memory.block, Memory.read_zeroFrom, Engine.paddedBlock]
  by_cases h : e.bcnt.val ≤ a.val
  · rw [if_pos h, if_neg (by omega)]
  · rw [if_neg h, if_pos (by omega)]

@[simp] theorem Engine.finalize_fin (c : Cfg) (e : Engine) : (e.finalize c).fin = true := rfl
@[simp] theorem Engine.finalize_err (c : Cfg) (e : Engine) : (e.finalize c).err = e.err := rfl
@[simp] theorem Engine.finalize_errcode (c : Cfg) (e : Engine) : (e.finalize c).errcode = e.errcode := rfl
@[simp] theorem Engine.finalize_bcnt (c : Cfg) (e : Engine) : (e.finalize c).bcnt = e.bcnt := rfl
@[simp] theorem Engine.finalize_t0 (c : Cfg) (e : Engine) : (e.finalize c).t0 = 8 := rfl
@[simp] theorem Engine.finalize_t1 (c : Cfg) (e : Engine) :
    (e.finalize c).t1 = clearFirst c (outputTweak c) := rfl
@[simp] theorem Engine.finalize_buf (c : Cfg) (e : Engine) :
    (e.finalize c).buf = e.buf.zeroFrom e.bcnt.val := rfl

theorem Engine.finalize_dg_block (c : Cfg) (e : Engine) :
    (e.finalize c).dg.block = wordsToBytes (e.finalize c).h := Memory.block_writeWords _ _

theorem Engine.digestCmd_fin {e : Engine} (c : Cfg) (h : e.fin = true) :
    e.digestCmd c = (e, e.respond noFault (blockBytes e.dg.block)) := by
  simp [Engine.digestCmd, Engine.digested, h]

theorem Engine.digestCmd_open {e : Engine} (c : Cfg) (h : e.fin = false) :
    e.digestCmd c =
      (e.finalize c, (e.finalize c).respond noFault (blockBytes (wordsToBytes (e.finalize c).h))) := by
  simp [Engine.digestCmd, Engine.digested, h, Engine.finalize_dg_block]

/-! ## `exec` and `step` -/

/-- `exec` is the command of the engine at this hardware's configuration, with its response appended (R12). -/
theorem exec_eq_command (i : Instr) (s : State) :
    exec i s = .next (s.complete (s.engine.command Config.sk512 i)) := by
  cases i <;> rfl

theorem step_cons {s : State} {w : CmdWord} {rest : List CmdWord} (h : s.port = w :: rest) :
    step s = .next ({ s with port := rest }.complete (s.engine.command Config.sk512 (decode w))) := by
  simp only [step, State.takeCommand, h, exec_eq_command]

theorem step_nil {s : State} (h : s.port = []) : step s = .next s := by
  simp only [step, State.takeCommand, h]

/-- A run over two sequences is the run over the first, then over the second. -/
theorem Engine.run_append (c : Cfg) (is js : List Instr) (e : Engine) :
    e.run c (is ++ js) =
      (((e.run c is).1.run c js).1, (e.run c is).2 ++ ((e.run c is).1.run c js).2) := by
  induction is generalizing e with
  | nil => rfl
  | cons i is ih => simp [Engine.run, ih]

end Sys2Proof.Machine
end

