-- ==== Sys2Proof/Laws/PerInstr.lean ====
section
/-! SUPPORT. Statements for all commands, made per command. -/

namespace Sys2Proof.Laws.OpField

/-- The `op` field of the word of a command is the command's opcode (30_encoding.md R70, R71). -/
def Statement (i : Instr) : Prop := opField (encode i) = i.opcode

theorem init : Statement .init := rfl

theorem absorbB (d : Byte) : Statement (.absorbB d) := by
  unfold Statement opField encode Instr.opcode
  revert d
  decide

theorem digest : Statement .digest := rfl

theorem reserved : Statement .reserved := rfl

end Sys2Proof.Laws.OpField
end

