-- ==== Sys2Proof/Tests/Slice0.lean ====
section
/-! SUPPORT. The model's own tests and, for every statement that has hypotheses, a concrete case that meets them all.
Expected values are those of the spec's worked examples and tables; each test names its source. -/

namespace Sys2Proof.Machine.Tests

/-! ## Decoding: words written out from R70 and R71, `op` in bits 9:8, `data` in bits 7:0 -/

theorem test_decode_init : decode 0b0000000000 = .init := by decide
theorem test_decode_absorb : decode 0b0101100001 = .absorbB 0x61 := by decide
theorem test_decode_absorb_top : decode 0b0110000001 = .absorbB 0x81 := by decide
theorem test_decode_digest : decode 0b1000000000 = .digest := by decide
theorem test_decode_reserved : decode 0b1100000001 = .reserved := by decide
theorem test_decodeBits_rejects_wide : decodeBits 0x400 = .error .widerThanCommandWord := rfl
theorem test_decodeBits_last : decodeBits 0x3FF = .ok .reserved := rfl
theorem test_decodeTableWord : decodeTableWord 16 0x15A = some (.absorbB 0x5A) := by decide

/-! ## Well-formedness: a term that each check refuses -/

theorem test_sk512_wf : Config.sk512.wf = true := by decide +kernel
theorem test_cfg_final_two_bits : { Config.sk512 with t1Final := 0xC000000000000000 }.flagsWf = false := by
  decide +kernel
theorem test_cfg_first_zero : { Config.sk512 with t1First := 0 }.flagsWf = false := by decide +kernel
theorem test_cfg_flags_equal : { Config.sk512 with t1First := 0x8000000000000000 }.flagsWf = false := by
  decide +kernel
theorem test_cfg_tags_equal : { Config.sk512 with t1TypeMsg := 0x3F00000000000000 }.tagsWf = false := by
  decide +kernel
theorem test_cfg_msg_overlaps : { Config.sk512 with t1TypeMsg := 0x7000000000000000 }.tagsWf = false := by
  decide +kernel
theorem test_cfg_out_overlaps : { Config.sk512 with t1TypeOut := 0xBF00000000000000 }.tagsWf = false := by
  decide +kernel
theorem test_cfg_pi_not_permutation : { Config.sk512 with pi := #v[2, 1, 4, 7, 6, 5, 0, 0] }.piWf = false := by
  decide +kernel
theorem test_cfg_pi_order_two : { Config.sk512 with pi := #v[1, 0, 3, 2, 5, 4, 7, 6] }.piWf = false := by
  decide +kernel
theorem test_cfg_rot_zero :
    { Config.sk512 with rot := rotTable.set 3 #v[26, 12, 0, 7] }.rotWf = false := by decide +kernel
theorem test_cfg_rot_word : { Config.sk512 with rot := rotTable.set 3 #v[26, 12, 64, 7] }.rotWf = false := by
  decide +kernel
theorem test_pseudo_unsigned_refused :
    [Pseudo.ingestU8 256, .ingestU16 65536, .ingestU32 (2 ^ 32), .ingestU64 (2 ^ 64)].map Pseudo.wf =
      [false, false, false, false] := by decide
theorem test_pseudo_signed_refused :
    [Pseudo.ingestI8 128, .ingestI8 (-129), .ingestI16 32768, .ingestI16 (-32769), .ingestI32 (2 ^ 31),
      .ingestI32 (-(2 ^ 31) - 1), .ingestI64 (2 ^ 63), .ingestI64 (-(2 ^ 63) - 1)].any Pseudo.wf = false := by decide

/-! ## The permutation core -/

/-- V-M1: rows 3, 5, 8 and 10 of the table. -/
theorem test_mix :
    mix 0 1 38 = (0x0000000000000001, 0x0000004000000001) ∧
    mix 0xFFFFFFFFFFFFFFFF 1 30 = (0x0000000000000000, 0x0000000040000000) ∧
    mix 0x0123456789ABCDEF 0xFEDCBA9876543210 33 = (0xFFFFFFFFFFFFFFFF, 0x13579BDE02468ACF) ∧
    mix 1 0x8000000000000000 7 = (0x8000000000000001, 0x8000000000000041) := by decide

/-- The key of V-K1, V-K2: bytes 0x10..0x4F as words. -/
def patternKey : Words :=
  #v[0x1716151413121110, 0x1F1E1D1C1B1A1918, 0x2726252423222120, 0x2F2E2D2C2B2A2928,
     0x3736353433323130, 0x3F3E3D3C3B3A3938, 0x4746454443424140, 0x4F4E4D4C4B4A4948]

/-- V-K1: the parity word of the default IV. -/
theorem test_ksExtend : (ksExtend Config.sk512 Config.sk512.iv)[8] = 0xF6D1AC60C5EB5262 := by decide +kernel

/-- V-K2: subkey 10, where word 0 is `KS[1]`, word 5 adds `TS[1]` and word 6 adds `TS[2]`. -/
theorem test_subkey :
    subkey (ksExtend Config.sk512 patternKey) (tsExtend 0x0706050403020100 0x0F0E0D0C0B0A0908) 10 =
      #v[0x1F1E1D1C1B1A1918, 0x2726252423222120, 0x2F2E2D2C2B2A2928, 0x3736353433323130,
         0x3F3E3D3C3B3A3938, 0x565452504E4C4A48, 0x5756555453525150, 0x555555555555555F] := by decide +kernel

/-- R109: the example of round 4, whose rotation set is 4. -/
theorem test_cipherRound :
    cipherRound Config.sk512 #v[0, 0, 0, 0, 0, 0, 0, 0x5555555555555556] 4 =
      #v[0, 0, 0, 0x00000C0000000003, 0x5555555555555556, 0, 0, 0] := by decide +kernel

/-- V-E3: all operands all ones. -/
theorem test_e512_ones :
    e512 Config.sk512 (words8 fun _ => 0xFFFFFFFFFFFFFFFF) 0xFFFFFFFFFFFFFFFF 0xFFFFFFFFFFFFFFFF
        (words8 fun _ => 0xFFFFFFFFFFFFFFFF) =
      #v[0x4B5E653D1D0EF1AE, 0xCF0A0856D3B822E2, 0x9F07F1160A77CBCD, 0x37DD9E8D2A6E945E,
         0x045812093D411D63, 0x9AC677AD2AA06CBD, 0x6769E99C50060CFA, 0x9ECBD5481D439F43] := by decide +kernel

/-- 93_implementation_defined.md GK4: the default IV is the block of the configuration string, computed by the model's
own cipher with the printed constants. -/
theorem test_iv_of_configuration_block :
    feedForward
        (e512 Config.sk512 (words8 fun _ => 0) 0x0000000000000020 0xC400000000000000
          #v[0x0000000133414853, 0x0000000000000200, 0, 0, 0, 0, 0, 0])
        #v[0x0000000133414853, 0x0000000000000200, 0, 0, 0, 0, 0, 0] = Config.sk512.iv := by decide +kernel

/-- V-U4: the position add wraps, with no carry into T1 (R131, R22). -/
theorem test_ubiBlock_wraps :
    let e := { Engine.reset with t0 := 0xFFFFFFFFFFFFFFC0, t1 := 0x3000000000000000 }.ubiBlock Config.sk512
      (fun _ => 0) 64
    e.t0 = 0 ∧ e.t1 = 0x3000000000000000 ∧
      e.h = #v[0x87C25A95FF2A1AEA, 0xF1067F523882A25D, 0x5990E25B36E3ABCF, 0x6B3AB64C7FC7EB67,
               0x138D9D572B66F43B, 0x148B509CCBD74283, 0xB3CC244426608062, 0x0673590772D06E8C] := by decide +kernel

/-! ## The commands: one step on a small state -/

/-- A fresh session that has absorbed the bytes `m`, at most 64 of them (R144 with P = 0). -/
def absorbed (m : List Byte) (n : Fin 65) : Engine :=
  { Engine.reset with buf := (m.zipIdx.map fun p => (p.2, p.1)).filter (fun p => p.2 != 0), bcnt := n }

/-- The pattern message of length 64 (95_test_vectors.md section 4). -/
def pattern64 : List Byte := (List.range 64).map (BitVec.ofNat 8)

/-- A state with the engine `e`, no word presented and no response given. -/
def machine (e : Engine) : State := { engine := e, port := [], responses := [] }

/-- P5: `INIT` in the middle of a message leaves `H = IV`, `T = (0, 0x7000000000000000)`, `BCNT = 0`. -/
theorem test_init_discards :
    exec .init (machine { absorbed [0x61] 1 with t0 := 64, t1 := 0x3000000000000000, err := true, errcode := 2 }) =
      .next { engine := { Engine.reset with buf := [(0, 0x61)] }, port := [],
              responses := [{ fault := 0, err := false, errcode := 0, data := [] }] } := rfl

/-- P2: the first byte of "abc" lies at `BUF[0]`, `BCNT = 1`. -/
theorem test_absorb_first : exec (.absorbB 0x61) (machine Engine.reset) =
    .next { engine := absorbed [0x61] 1, port := [],
            responses := [{ fault := 0, err := false, errcode := 0, data := [] }] } := by rfl

/-- V-U3, P3: the 65th byte of the pattern message processes bytes 0..63 and is stored at `BUF[0]`. -/
theorem test_absorb_65th :
    let e := (absorbed pattern64 64).absorb Config.sk512 0x40
    e.h = #v[0xCB23ACA6C29BE6EE, 0x1804680DC2F2BEBF, 0xD69026DB25D24566, 0x802E8D4C602E54EA,
             0x9B9B970CB5313FBE, 0xA801A60CE61595E3, 0xE3D7568EC1DF14D7, 0x20A596F406DBA90F] ∧
      e.t0 = 0x40 ∧ e.t1 = 0x3000000000000000 ∧ e.bcnt = 1 ∧ e.buf.read 0 = 0x40 := by decide +kernel

/-- V-S1: `DIGEST` as the first word after reset answers the digest of the empty message. -/
theorem test_digest_empty :
    (match step (State.reset.withFetchWord 16 0x200) with
      | .next t => t.responses
      | .fault _ => []
      | .refused _ => []) =
      [{ fault := 0, err := false, errcode := 0
         data :=
          [0xd3, 0xf7, 0x26, 0x3a, 0x09, 0x83, 0x7f, 0x4c, 0xe5, 0xc8, 0xef, 0x70, 0xa5, 0xdd, 0xff, 0xac,
           0x7b, 0x92, 0xd6, 0xc2, 0xac, 0xe5, 0xa1, 0x22, 0x65, 0xbd, 0x5b, 0x59, 0x32, 0x60, 0xa3, 0xff,
           0x20, 0xd8, 0xb4, 0xb4, 0xc5, 0x49, 0x4e, 0x94, 0x54, 0x48, 0xb3, 0x7a, 0xbb, 0x1f, 0xc5, 0x26,
           0xf6, 0xb4, 0x60, 0x89, 0x20, 0x8f, 0xde, 0x93, 0x8d, 0x7f, 0x23, 0x72, 0x4c, 0x4b, 0xdf, 0xb7] }] := by
  decide +kernel

/-- V-S5: the digest of 64 bytes, whose full block is processed by `DIGEST` with FINAL (R142). -/
theorem test_digest_full_block :
    ((absorbed pattern64 64).digestCmd Config.sk512).2.data.take 8 =
      [0xdf, 0x26, 0x24, 0x90, 0x2c, 0xcc, 0x7e, 0x04] := by decide +kernel

/-- V-Q3: a reserved word after reset records code 2. -/
theorem test_reserved_first_fault : (step (State.reset.withFetchWord 16 0x3FF)) =
    .next { State.reset with
      engine := { Engine.reset with err := true, errcode := 2 },
      responses := [{ fault := 2, err := true, errcode := 2, data := [] }] } := by rfl

/-- P4: a reserved word after another fault is answered with its own code and leaves the first code. -/
theorem test_reserved_later_fault :
    ({ Engine.reset with fin := true, err := true, errcode := 1 }.reservedCmd).2 =
      { fault := 2, err := true, errcode := 1, data := [] } := by decide

/-- 93_implementation_defined.md GK5: with the constants of the alternative configuration the rules of the model give
the digest of the one-byte message 0xFF known outside this spec. -/
theorem test_alternative_configuration :
    let c : Cfg := { Config.sk512 with
      cParity := 0x1BD11BDAA9FC1A22
      rot := #v[#v[46, 36, 19, 37], #v[33, 27, 14, 42], #v[17, 49, 36, 39], #v[44, 9, 54, 56],
                #v[39, 30, 34, 24], #v[13, 50, 10, 17], #v[25, 29, 39, 43], #v[8, 35, 56, 22]]
      iv := #v[0x4903ADFF749C51CE, 0x0D95DE399746DF03, 0x8FD1934127C79BCE, 0x9A255629FF352CB1,
               0x5DB62599DF6CA7B0, 0xEABE394CA9D5C3F4, 0x991112C71A75B523, 0xAE18A40B660FCC33] }
    (((({ Engine.reset with h := c.iv } : Engine).absorb c 0xFF).digestCmd c).2.data.take 8) =
      [0x71, 0xb7, 0xbc, 0xe6, 0xfe, 0x64, 0x52, 0x22] := by decide +kernel

/-! ## The host layer and the listing syntax -/

/-- V-H1, V-H3, V-H4, V-H7, V-H10. -/
theorem test_host_bytes :
    (Pseudo.ingestU32 0x01020304).bytes Config.sk512 = [0x04, 0x03, 0x02, 0x01] ∧
    (Pseudo.ingestI64 (-2)).bytes Config.sk512 = [0xfe, 0xff, 0xff, 0xff, 0xff, 0xff, 0xff, 0xff] ∧
    (Pseudo.ingestF64 0x3FF0000000000000).bytes Config.sk512 = [0, 0, 0, 0, 0, 0, 0xf0, 0x3f] ∧
    (Pseudo.ingestBool false).bytes Config.sk512 = [0x00] ∧
    (Pseudo.ingestI8 (-1)).bytes Config.sk512 = (Pseudo.ingestU8 255).bytes Config.sk512 := by decide

/-- V-H9: `DG[0] = 0xd3` gives 'd', '3'. -/
theorem test_hex : hexString [0xd3, 0xb7] = ['d', '3', 'b', '7'] := by decide

/-- P2, R76: a listing with a comment, a quoted character, a decimal and a hexadecimal operand. -/
theorem test_assemble :
    assemble
      [['I', 'N', 'I', 'T', ' ', ';', 'x'], [], ['A', 'B', 'S', 'O', 'R', 'B', '.', 'B', ' ', ' ', '#', '\'', 'a', '\''],
       ['A', 'B', 'S', 'O', 'R', 'B', '.', 'B', ' ', '#', '6', '4'],
       ['A', 'B', 'S', 'O', 'R', 'B', '.', 'B', ' ', '#', '0', 'x', '3', 'F'], ['D', 'I', 'G', 'E', 'S', 'T']] =
      .ok [0x000, 0x161, 0x140, 0x13F, 0x200] := by rfl

/-- R76: `0 <= imm8 <= 255`. -/
theorem test_assemble_range :
    asmLine ['A', 'B', 'S', 'O', 'R', 'B', '.', 'B', ' ', '#', '2', '5', '6'] = .error .operandOutOfRange := by rfl

/-! ## Cases that meet the hypotheses of the statements -/

/-- A finalised session: the state a `DIGEST` of "abc" leaves. -/
def finalisedEngine : Engine := (absorbed [0x61, 0x62, 0x63] 3).finalize Config.sk512

/-- Also for InitConstructsTheSession and ReservedWordRaisesIllegalCommand: a word of each row, no canonical one. -/
theorem witness_EveryWordSelectsOneRow :
    opField 0x0A5 = 0b00 ∧ opField 0x161 = 0b01 ∧ opField 0x2FF = 0b10 ∧ opField 0x3FF = 0b11 := by decide

theorem witness_DecodeAndEncodeAgree : (Instr.absorbB 0xFF).wf = true ∧ opField 0x1FF = 1 ∧ opField 0x2FF ≠ 1 := by
  decide

theorem witness_IgnoredDataFieldIsIgnored :
    opField 0x0A5 = opField 0x000 ∧ opField 0x0A5 ≠ 1 ∧ opField 0x3FF = opField 0x300 ∧ opField 0x3FF ≠ 1 := by decide

theorem witness_WorkedEncodingsDecode : 0x300 ≤ (0x300 : CmdWord).toNat ∧ 0x300 ≤ (0x3FF : CmdWord).toNat := by decide

theorem witness_ListingAssemblesToItsCommands :
    [Instr.init, .absorbB 0xF0, .digest].map Instr.asmText =
      [['I', 'N', 'I', 'T'], ['A', 'B', 'S', 'O', 'R', 'B', '.', 'B', ' ', '#', '0', 'x', 'f', '0'],
       ['D', 'I', 'G', 'E', 'S', 'T']].map some := by decide

/-- Also for EachWordGetsOneResponse. -/
theorem witness_StepRunsTheDecodedCommand : (State.reset.withFetchWord 16 0x161).port = 0x161 :: [] := by decide

theorem witness_IdleStepHoldsTheState : State.reset.port = [] := rfl

/-- The three clauses, the middle one at both ends of its range. -/
theorem witness_AbsorbStoresOrProcesses :
    finalisedEngine.fin = true ∧
    ((absorbed [] 0).fin = false ∧ (absorbed [] 0).bcnt.val < 64) ∧
    ((absorbed pattern64 63).fin = false ∧ (absorbed pattern64 63).bcnt.val < 64) ∧
    (absorbed pattern64 64).fin = false ∧ (absorbed pattern64 64).bcnt.val = 64 := by decide

theorem witness_FirstDigestFinalises : (machine (absorbed [0x61] 1)).engine.fin = false := rfl

theorem witness_LaterDigestIsALookup : (machine finalisedEngine).engine.fin = true := rfl

/-- With room in the buffer (the last place) and with a full block waiting. -/
theorem witness_AbsorbChangesOneByteOfBuf :
    (∃ t, exec (.absorbB 7) (machine (absorbed pattern64 63)) = .next t) ∧
    (absorbed pattern64 63).fin = false ∧ (absorbed pattern64 63).bcnt.val < 64 ∧
    (∃ t, exec (.absorbB 7) (machine (absorbed pattern64 64)) = .next t) ∧ (absorbed pattern64 64).fin = false ∧
    (1 : Fin 64) ≠ (absorbed pattern64 64).storeAddr :=
  ⟨⟨_, rfl⟩, rfl, by decide, ⟨_, rfl⟩, rfl, by decide⟩

theorem witness_OtherCommandsStoreNothing :
    (∃ t, exec .init (machine (absorbed [0x61] 1)) = .next t) ∧
    (∃ t, exec .reserved (machine (absorbed [0x61] 1)) = .next t) ∧
    (∃ t, exec (.absorbB 1) (machine finalisedEngine) = .next t) ∧
    (∃ t, exec .digest (machine finalisedEngine) = .next t) ∧ (machine finalisedEngine).engine.fin = true :=
  ⟨⟨_, rfl⟩, ⟨_, rfl⟩, ⟨_, rfl⟩, ⟨_, rfl⟩, rfl⟩

/-- With buffered bytes before `BCNT` and places from `BCNT` on. -/
theorem witness_FirstDigestKeepsTheBufferedBytes :
    (absorbed [0x61] 1).fin = false ∧ (∃ t, exec .digest (machine (absorbed [0x61] 1)) = .next t) ∧
    (0 : Fin 64).val < (absorbed [0x61] 1).bcnt.val ∧ (absorbed [0x61] 1).bcnt.val ≤ (1 : Fin 64).val :=
  ⟨rfl, ⟨_, rfl⟩, by decide, by decide⟩

theorem witness_FaultingCommandOnlyRecordsTheFault :
    (Engine.reset.command Config.sk512 .reserved).2.fault ≠ 0 ∧
    ({ Engine.reset with fin := true }.command Config.sk512 (.absorbB 9)).2.fault ≠ 0 ∧ Instr.digest ≠ .init := by decide

theorem witness_OnlyInitClearsTheFaultRecord :
    { Engine.reset with err := true, errcode := 1 }.err = true ∧ Instr.reserved ≠ .init ∧ Instr.absorbB 3 ≠ .init := by
  decide

theorem witness_AbsorbAfterDigestKeepsTheDigest : finalisedEngine.fin = true := rfl

theorem witness_ResponseFieldsAsTheRecordSays :
    Instr.digest = .digest ∧ Engine.reset.fin = false ∧ Instr.absorbB 1 ≠ .digest := by decide

/-- Also for PhasesFollowTheLifecycle, CipherCallIsABijection and StateAfterAMessage, whose hypothesis is the same. -/
theorem witness_UbiBlockClearsFirstOnly : Config.sk512.wf = true := by decide +kernel

theorem witness_SpacesReadBackWhatIsWritten :
    Memory.wf [(0, 0x01), (63, 0xFF)] = true ∧ Memory.wf ([] : Memory) = true ∧
    Memory.block ([(0, 0x01)] : Memory) = Memory.block ([(0, 0x01)] : Memory) := by decide

theorem witness_MixIsUndoneByItsInverse : 0 < 1 ∧ 1 < 64 ∧ 0 < 63 ∧ 63 < 64 := by decide

theorem witness_InPlaceFormGivesTheSameCiphertext : Config.sk512.pi = piDefault := rfl

/-- In a streaming session, whose state is no reset state: the invariant, and a step from it. -/
theorem witness_StepKeepsTheInvariant :
    ∃ s t : State, s.engine.Inv Config.sk512 ∧ step s = .next t ∧ s.engine.t0 = 0x40 ∧ s.port ≠ [] := by
  refine ⟨(machine { absorbed [0x40] 1 with t0 := 0x40, t1 := 0x3000000000000000 }).withFetchWord 16 0x1AA, _,
    ?_, rfl, rfl, by decide⟩
  exact ⟨rfl, rfl, fun _ => .inr ⟨by decide, by decide, rfl⟩, fun h => absurd h (by decide), fun _ => rfl,
    fun h => absurd h (by decide)⟩

/-- The session that has absorbed one byte, and its engine. -/
theorem witness_CommandsRefineTheSession :
    Config.sk512.wf = true ∧ Represents Config.sk512 { Session.fresh with message := [0x61] } (absorbed [0x61] 1) := by
  refine ⟨by decide +kernel, rfl, rfl, rfl, fun _ => ⟨rfl, rfl, rfl, rfl, fun k hk => ?_⟩,
    fun h => absurd h (by decide)⟩
  have hk0 : k = 0 := Fin.ext (Nat.lt_one_iff.mp hk)
  subst hk0
  rfl

theorem witness_SessionAnswersTheDigestOfItsMessage :
    ((((machine finalisedEngine).present 0x200).present 0x161).present 0x000).port =
      (Instr.init :: (ingest [0x61] ++ [Instr.digest])).map encode := by decide

/-- Also for ChunkBoundariesAreNotObservable. -/
theorem witness_ChunkFormIsTheRunOfItsBytes : (absorbed pattern64 64).fin = false := rfl

/-- Two engines that differ in a byte of `BUF` past `BCNT` and in `DG`. -/
theorem witness_UnspecifiedBytesAreNeverObserved :
    Indistinguishable (absorbed [0x61] 1) { absorbed [0x61] 1 with buf := [(0, 0x61), (5, 0x77)], dg := [(0, 1)] } := by
  refine ⟨rfl, rfl, rfl, fun _ => ⟨rfl, rfl, rfl, rfl, fun k hk => ?_⟩, fun h => absurd h (by decide)⟩
  have hk0 : k = 0 := Fin.ext (Nat.lt_one_iff.mp hk)
  subst hk0
  rfl

/-- For every premise; the last two engines have equal control and another `T` and fault record. -/
theorem witness_ControlIgnoresTheData :
    (Instr.absorbB 1).opcode = (Instr.absorbB 2).opcode ∧
    (absorbed [0x61] 1).control = (absorbed [0x62] 1).control ∧
    (absorbed [0x61] 1).faultRecord = (absorbed [0x62] 1).faultRecord ∧
    (absorbed [0x61] 1).control =
      { absorbed [0x62] 1 with t0 := 64, t1 := 0x3000000000000000, err := true, errcode := 2 }.control ∧ (absorbed [0x61] 1).t0 = (absorbed [0x62] 1).t0 ∧
    (absorbed [0x61] 1).t1 = (absorbed [0x62] 1).t1 := by decide

/-- The top of the range of each width. -/
theorem witness_TypedValuesAreLittleEndian :
    [Pseudo.ingestU8 255, .ingestU16 65535, .ingestU32 (2 ^ 32 - 1), .ingestU64 (2 ^ 64 - 1)].all Pseudo.wf = true := by
  decide

theorem witness_PlainValuesAreTheirOwnBytes : Pseudo.ingestText [0x61] ≠ .digestHex := by decide

/-- Both ends of the range of eight bits, and a negative value of each width. -/
theorem witness_SignedValuesAreTwosComplement :
    (Pseudo.ingestI8 (-128)).wf = true ∧ (Pseudo.ingestI8 127).wf = true ∧ (Pseudo.ingestI16 (-1)).wf = true ∧
    (Pseudo.ingestI32 (-1)).wf = true ∧ (Pseudo.ingestI64 (-(2 ^ 63))).wf = true := by decide

theorem witness_ExpansionAfterDigestOnlyFaults :
    Pseudo.ingestU16 7 ≠ .digestHex ∧ Pseudo.ingestBytes [] ≠ .digestHex ∧ finalisedEngine.fin = true :=
  ⟨by decide, by decide, rfl⟩

theorem witness_TypedSequenceIsItsFlatBytes :
    ∀ p ∈ [Pseudo.ingestBool true, .ingestText [0x61]], p ≠ .digestHex := by decide

end Sys2Proof.Machine.Tests
end

section
/-! The statements of 00_scope.md: the byte and word conversions of R15, and the command step of R12. -/

namespace Sys2Proof.Machine

/-! ## Bytes and words -/

/-- Horner's step of the little-endian sum: a byte appended below a word. -/
theorem toNat_append_byte {n : Nat} (x : BitVec n) (y : Byte) : (x ++ y).toNat = x.toNat * 2 ^ 8 + y.toNat := by
  rw [BitVec.toNat_append, ← Nat.shiftLeft_add_eq_or_of_lt y.isLt, Nat.shiftLeft_eq]

/-- `LE64(b)` is the little-endian sum of its bytes (R15). -/
theorem le64_toNat (b : Fin 8 → Byte) : (le64 b).toNat = ∑ k : Fin 8, (b k).toNat * 2 ^ (8 * k.val) := by
  change BitVec.toNat (w := 8 + 8 + 8 + 8 + 8 + 8 + 8 + 8) (b 7 ++ b 6 ++ b 5 ++ b 4 ++ b 3 ++ b 2 ++ b 1 ++ b 0) = _
  simp only [toNat_append_byte, Fin.sum_univ_eight, Fin.coe_ofNat_eq_mod]
  ring

theorem blockToWords_get (b : Block) (i : Fin 8) : (blockToWords b)[i] = le64 fun k => b (byteAddr i k) :=
  words8_get _ i

theorem wordsToBytes_byteAddr (w : Words) (i k : Fin 8) : wordsToBytes w (byteAddr i k) = byteOf w[i] k := by
  simp only [wordsToBytes, wordOfAddr_byteAddr, byteOfAddr_byteAddr]

/-- Settles O27: the sum, the read-outs of the two block conversions at one place, and their two inverse laws. -/
theorem byteAndWordConversionsInvert : Obligations.ByteAndWordConversionsInvert :=
  ⟨le64_toNat, fun _ _ => rfl, blockToWords_get, wordsToBytes_byteAddr, wordsToBytes_blockToWords,
    blockToWords_wordsToBytes⟩

/-! ## The step -/

/-- Settles O6: both sides are the engine's command at the decoded word, on the port without that word. -/
theorem stepRunsTheDecodedCommand : Obligations.StepRunsTheDecodedCommand := fun s w rest h => by
  rw [step_cons h, exec_eq_command]

end Sys2Proof.Machine
end

section
/-! The rules the statements of 10_state.md rest on: what each command leaves of the engine, and what the constraints
of R8 say of the flag bits of T1. -/

namespace Sys2Proof

/-! ## The constraints of R8 -/

theorem Cfg.wf_iff (c : Cfg) :
    c.wf = true ↔ c.flagsWf = true ∧ c.tagsWf = true ∧ c.piWf = true ∧ c.rotWf = true := by
  simp only [Cfg.wf, Bool.and_eq_true, and_assoc]

/-- FIRST is a bit: it is set in no zero word (R8). -/
theorem Cfg.t1First_ne_zero {c : Cfg} (h : c.flagsWf = true) : c.t1First ≠ 0 := by
  simp only [Cfg.flagsWf, isSingleBit, Bool.and_eq_true, bne_iff_ne] at h
  obtain ⟨⟨-, hfirst, -⟩, -⟩ := h
  exact hfirst

/-- The MESSAGE tag and FIRST have no bit in common (R8). -/
theorem Cfg.t1TypeMsg_and_t1First {c : Cfg} (h : c.tagsWf = true) : c.t1TypeMsg &&& c.t1First = 0 := by
  simp only [Cfg.tagsWf, Bool.and_eq_true, beq_iff_eq] at h
  obtain ⟨⟨-, hmsg⟩, -⟩ := h
  apply BitVec.eq_of_getLsbD_eq
  intro n hn
  have hbit := congrArg (BitVec.getLsbD · n) hmsg
  simp only [BitVec.getLsbD_and, BitVec.getLsbD_or] at hbit ⊢
  revert hbit
  cases c.t1TypeMsg.getLsbD n <;> cases c.t1First.getLsbD n <;> simp

end Sys2Proof

namespace Sys2Proof.Machine

/-! ## Faults -/

@[simp] theorem Engine.recordFault_h (k : FaultKind) (e : Engine) : (e.recordFault k).h = e.h := by
  rw [Engine.recordFault_eq]
@[simp] theorem Engine.recordFault_t0 (k : FaultKind) (e : Engine) : (e.recordFault k).t0 = e.t0 := by
  rw [Engine.recordFault_eq]
@[simp] theorem Engine.recordFault_t1 (k : FaultKind) (e : Engine) : (e.recordFault k).t1 = e.t1 := by
  rw [Engine.recordFault_eq]
@[simp] theorem Engine.recordFault_buf (k : FaultKind) (e : Engine) : (e.recordFault k).buf = e.buf := by
  rw [Engine.recordFault_eq]
@[simp] theorem Engine.recordFault_bcnt (k : FaultKind) (e : Engine) : (e.recordFault k).bcnt = e.bcnt := by
  rw [Engine.recordFault_eq]
@[simp] theorem Engine.recordFault_dg (k : FaultKind) (e : Engine) : (e.recordFault k).dg = e.dg := by
  rw [Engine.recordFault_eq]
@[simp] theorem Engine.recordFault_fin (k : FaultKind) (e : Engine) : (e.recordFault k).fin = e.fin := by
  rw [Engine.recordFault_eq]
@[simp] theorem Engine.recordFault_err (k : FaultKind) (e : Engine) : (e.recordFault k).err = true := by
  rw [Engine.recordFault_eq]
@[simp] theorem Engine.recordFault_errcode (k : FaultKind) (e : Engine) :
    (e.recordFault k).errcode = if e.err then e.errcode else k.code := by
  rw [Engine.recordFault_eq]

/-! ## `ABSORB.B` -/

@[simp] theorem Engine.absorb_dg (c : Cfg) (d : Byte) (e : Engine) : (e.absorb c d).dg = e.dg := by
  simp [Engine.absorb]
@[simp] theorem Engine.absorb_fin (c : Cfg) (d : Byte) (e : Engine) : (e.absorb c d).fin = e.fin := by
  simp [Engine.absorb]
@[simp] theorem Engine.absorb_err (c : Cfg) (d : Byte) (e : Engine) : (e.absorb c d).err = e.err := by
  simp [Engine.absorb]
@[simp] theorem Engine.absorb_errcode (c : Cfg) (d : Byte) (e : Engine) : (e.absorb c d).errcode = e.errcode := by
  simp [Engine.absorb]
@[simp] theorem Engine.absorb_buf (c : Cfg) (d : Byte) (e : Engine) :
    (e.absorb c d).buf = e.buf.write e.storeAddr d := by
  simp [Engine.absorb, Engine.makeRoom_storeAddr]
@[simp] theorem Engine.absorb_bcnt_val (c : Cfg) (d : Byte) (e : Engine) :
    (e.absorb c d).bcnt.val = e.storeAddr.val + 1 := by
  simp [Engine.absorb, Engine.makeRoom_storeAddr]

/-- With room in the buffer `ABSORB.B` is the store alone (R141). -/
theorem Engine.absorb_room (c : Cfg) (d : Byte) {e : Engine} (h : e.bcnt.val < 64) :
    e.absorb c d = e.storeByte d := by
  rw [Engine.absorb, Engine.makeRoom_room c h]

/-- With a full block waiting `ABSORB.B` processes it before the store (R141). -/
theorem Engine.absorb_full (c : Cfg) (d : Byte) {e : Engine} (h : e.bcnt.val = 64) :
    e.absorb c d = { e.ubiBlock c e.buf.block 64 with bcnt := 0 }.storeByte d := by
  rw [Engine.absorb, Engine.makeRoom_full c h]

theorem Engine.bcnt_room_or_full (e : Engine) : e.bcnt.val < 64 ∨ e.bcnt.val = 64 := by omega

/-- A full buffer needs no padding. -/
theorem Engine.paddedBlock_full {e : Engine} (h : e.bcnt.val = 64) : e.paddedBlock = e.buf.block :=
  funext fun a => if_pos (by omega)

/-! ## `DIGEST` -/

@[simp] theorem Engine.finalize_dg (c : Cfg) (e : Engine) :
    (e.finalize c).dg = e.dg.writeWords (e.finalize c).h := rfl

/-- `FINALIZE` step 1 in terms of the buffered bytes (R160). -/
theorem Engine.closeChain_h (c : Cfg) (e : Engine) :
    (e.closeChain c).h =
      feedForward
        (e512 c e.h (e.t0 + BitVec.ofNat 64 e.bcnt.val) (setFinal c e.t1) (blockToWords e.paddedBlock))
        (blockToWords e.paddedBlock) := by
  simp only [Engine.closeChain, Engine.ubiBlock_h, Memory.block_zeroFrom]

/-- The counter block is eight zero words: the one output block has the counter 0 (R161). -/
theorem blockToWords_counterBlock : blockToWords counterBlock = words8 fun _ => 0 := by decide

theorem feedForward_zero (x : Words) : feedForward x (words8 fun _ => 0) = x :=
  words_ext fun i => by simp [feedForward]

/-- The chaining value `FINALIZE` leaves: the output words of the closed chain (R161, R165). -/
theorem Engine.finalize_h (c : Cfg) (e : Engine) :
    (e.finalize c).h = e512 c (e.closeChain c).h 8 (outputTweak c) (words8 fun _ => 0) := by
  change ((e.closeChain c).outputTransform c).h = _
  rw [Engine.outputTransform, Engine.ubiBlock_h, blockToWords_counterBlock, feedForward_zero]
  rfl

/-! ## All commands -/

/-- The engine a command leaves, by the five things a command can do: construct, absorb, finalise, look the digest up,
take a fault. -/
theorem Engine.command_engine_cases (c : Cfg) (i : Instr) (e : Engine) :
    (i = .init ∧ (e.command c i).1 = e.construct c) ∨
    (∃ d, i = .absorbB d ∧ e.fin = false ∧ (e.command c i).1 = e.absorb c d) ∨
    (i = .digest ∧ e.fin = false ∧ (e.command c i).1 = e.finalize c) ∨
    (i = .digest ∧ e.fin = true ∧ (e.command c i).1 = e) ∨
    (∃ k, (i = .reserved ∨ e.fin = true ∧ ∃ d, i = .absorbB d) ∧ (e.command c i).1 = e.recordFault k) := by
  cases i with
  | init => exact .inl ⟨rfl, rfl⟩
  | absorbB d =>
    cases hfin : e.fin with
    | false => exact .inr (.inl ⟨d, rfl, rfl, congrArg Prod.fst (Engine.absorbCmd_open c d hfin)⟩)
    | true =>
      exact .inr (.inr (.inr (.inr
        ⟨.useAfterFinalize, .inr ⟨rfl, d, rfl⟩, congrArg Prod.fst (Engine.absorbCmd_fin c d hfin)⟩)))
  | digest =>
    cases hfin : e.fin with
    | false => exact .inr (.inr (.inl ⟨rfl, rfl, congrArg Prod.fst (Engine.digestCmd_open c hfin)⟩))
    | true => exact .inr (.inr (.inr (.inl ⟨rfl, rfl, congrArg Prod.fst (Engine.digestCmd_fin c hfin)⟩)))
  | reserved => exact .inr (.inr (.inr (.inr ⟨.illegalCommand, .inl rfl, rfl⟩)))

/-! ## The bits of T1 -/

theorem clearFirst_t1TypeMsg {c : Cfg} (h : c.tagsWf = true) : clearFirst c c.t1TypeMsg = c.t1TypeMsg := by
  apply BitVec.eq_of_getLsbD_eq
  intro n hn
  have hbit := congrArg (BitVec.getLsbD · n) (Cfg.t1TypeMsg_and_t1First h)
  simp only [clearFirst, BitVec.getLsbD_and, BitVec.getLsbD_not] at hbit ⊢
  revert hbit
  cases c.t1TypeMsg.getLsbD n <;> cases c.t1First.getLsbD n <;> simp [hn]

/-- Clearing FIRST leaves nothing of FIRST itself. -/
theorem clearFirst_or_t1First (c : Cfg) (t : Word) : clearFirst c (c.t1First ||| t) = clearFirst c t := by
  apply BitVec.eq_of_getLsbD_eq
  intro n hn
  simp only [clearFirst, BitVec.getLsbD_and, BitVec.getLsbD_or, BitVec.getLsbD_not]
  cases c.t1First.getLsbD n <;> simp

/-- The first block of a session takes T1 from FIRST and MESSAGE to MESSAGE alone (R24, R135). -/
theorem clearFirst_messageTweak {c : Cfg} (h : c.tagsWf = true) : clearFirst c (messageTweak c) = c.t1TypeMsg := by
  rw [messageTweak, clearFirst_or_t1First, clearFirst_t1TypeMsg h]

theorem firstFlag_clearFirst (c : Cfg) (t : Word) : firstFlag c (clearFirst c t) = false := by
  have h : t &&& ~~~c.t1First &&& c.t1First = 0 := by
    rw [BitVec.and_assoc, BitVec.and_comm (~~~c.t1First)]
    simp
  simp [firstFlag, clearFirst, h]

theorem firstFlag_messageTweak {c : Cfg} (h : c.flagsWf = true) : firstFlag c (messageTweak c) = true := by
  have habs : (c.t1First ||| c.t1TypeMsg) &&& c.t1First = c.t1First := by
    apply BitVec.eq_of_getLsbD_eq
    intro n hn
    simp only [BitVec.getLsbD_and, BitVec.getLsbD_or]
    cases c.t1First.getLsbD n <;> simp
  rw [firstFlag, messageTweak, habs]
  simpa using Cfg.t1First_ne_zero h

end Sys2Proof.Machine
end

section
/-! The statements of 10_state.md: frames, the fault record, the phases, what is not observable, and the invariant. -/

namespace Sys2Proof.Machine

/-! ## Frames and the fault record (R39, R30) -/

/-- Settles O16: a command of these forms constructs, looks the digest up or takes a fault, and none of the three
writes a byte. -/
theorem otherCommandsStoreNothing : Obligations.OtherCommandsStoreNothing := by
  intro i s t hexec hform
  rw [exec_eq_command, Host.Outcome.next.injEq] at hexec
  subst hexec
  simp only [State.complete_engine, State.complete_port]
  obtain ⟨rfl, hcmd⟩ | ⟨d, rfl, hfin, -⟩ | ⟨rfl, hfin, -⟩ | ⟨rfl, -, hcmd⟩ | ⟨k, -, hcmd⟩ :=
    Engine.command_engine_cases Config.sk512 i s.engine
  · simp [hcmd]
  · simp [hfin] at hform
  · simp [hfin] at hform
  · simp [hcmd]
  · simp [hcmd]

/-- Settles O20: a fault keeps the code of the first one, and the commands that take no fault leave the record. -/
theorem onlyInitClearsTheFaultRecord : Obligations.OnlyInitClearsTheFaultRecord := by
  intro c i e herr hi
  obtain ⟨hinit, -⟩ | ⟨d, -, -, hcmd⟩ | ⟨-, -, hcmd⟩ | ⟨-, -, hcmd⟩ | ⟨k, -, hcmd⟩ :=
    Engine.command_engine_cases c i e
  · exact absurd hinit hi
  all_goals simp [hcmd, herr]

/-! ## The phases (R36) -/

theorem Engine.phase_construct {c : Cfg} (h : c.flagsWf = true) (e : Engine) : (e.construct c).phase c = .fresh := by
  simp [Engine.phase, firstFlag_messageTweak h]

theorem Engine.phase_of_fin (c : Cfg) {e : Engine} (h : e.fin = true) : e.phase c = .finalised := by
  simp [Engine.phase, h]

theorem Engine.phase_recordFault (c : Cfg) (k : FaultKind) (e : Engine) : (e.recordFault k).phase c = e.phase c := by
  simp [Engine.phase]

theorem Engine.digested_fin (c : Cfg) (e : Engine) : (e.digested c).fin = true := by
  cases h : e.fin <;> simp [Engine.digested, h]

/-- Only the 65th byte, absorbed in a FRESH session with a full block waiting, changes the phase. -/
theorem Engine.phase_absorb (c : Cfg) (d : Byte) {e : Engine} (hfin : e.fin = false) :
    (e.absorb c d).phase c = if e.phase c = .fresh ∧ e.bcnt.val = 64 then .streaming else e.phase c := by
  obtain hroom | hfull := e.bcnt_room_or_full
  · have hne : e.bcnt.val ≠ 64 := by omega
    simp [Engine.absorb_room c d hroom, Engine.phase, hne]
  · have hstreaming : (e.absorb c d).phase c = .streaming := by
      simp [Engine.absorb_full c d hfull, Engine.phase, firstFlag_clearFirst, hfin]
    rw [hstreaming]
    cases hfirst : firstFlag c e.t1 <;> simp [Engine.phase, hfin, hfirst, hfull]

/-- Settles O25: the phase after each command's own effect; FIN and the flag bits of T1 tell it. -/
theorem phasesFollowTheLifecycle : Obligations.PhasesFollowTheLifecycle := by
  intro c e hwf
  obtain ⟨hflags, -⟩ := c.wf_iff.mp hwf
  refine ⟨e.phase_construct hflags, Engine.phase_of_fin c (e.digested_fin c), e.phase_recordFault c _, fun d => ?_⟩
  change (e.absorbCmd c d).1.phase c = _
  cases hfin : e.fin with
  | false => rw [Engine.absorbCmd_open c d hfin, Engine.phase_absorb c d hfin]
  | true =>
    have hphase := Engine.phase_of_fin c hfin
    rw [Engine.absorbCmd_fin c d hfin]
    simp [Engine.raise, Engine.phase_recordFault, hphase]

/-! ## What is not observable (R26, R28, R166) -/

theorem Indistinguishable.construct (c : Cfg) (e f : Engine) : Indistinguishable (e.construct c) (f.construct c) where
  fin := rfl
  err := rfl
  errcode := rfl
  absorbing _ := ⟨rfl, rfl, rfl, rfl, fun _ hk => absurd hk (Nat.not_lt_zero _)⟩
  finalised h := absurd h (by simp)

section
variable {e f : Engine} (hi : Indistinguishable e f)
include hi

/-- Finalisation pads over the bytes from `BCNT` on, so it sees the same block. -/
theorem Indistinguishable.paddedBlock_eq (hfin : e.fin = false) : e.paddedBlock = f.paddedBlock := by
  obtain ⟨-, -, -, hbcnt, hbuf⟩ := hi.absorbing hfin
  funext a
  rw [Engine.paddedBlock, Engine.paddedBlock, ← hbcnt]
  by_cases ha : a.val < e.bcnt.val
  · rw [if_pos ha, if_pos ha, hbuf a ha]
  · rw [if_neg ha, if_neg ha]

theorem Indistinguishable.recordFault (k : FaultKind) : Indistinguishable (e.recordFault k) (f.recordFault k) where
  fin := by simp [hi.fin]
  err := by simp
  errcode := by simp [hi.err, hi.errcode]
  absorbing h := by simpa using hi.absorbing (by simpa using h)
  finalised h := by simpa using hi.finalised (by simpa using h)

theorem Indistinguishable.raise (k : FaultKind) :
    Indistinguishable (e.raise k).1 (f.raise k).1 ∧ (e.raise k).2 = (f.raise k).2 := by
  refine ⟨hi.recordFault k, ?_⟩
  simp [Engine.raise_eq, hi.err, hi.errcode]

theorem Indistinguishable.storeAddr_eq (hfin : e.fin = false) : e.storeAddr = f.storeAddr := by
  obtain ⟨-, -, -, hbcnt, -⟩ := hi.absorbing hfin
  simp only [Engine.storeAddr, hbcnt]

/-- A block processed by `ABSORB.B` is a full one, all of whose bytes lie before `BCNT`. -/
theorem Indistinguishable.absorb_chain (c : Cfg) (d : Byte) (hfin : e.fin = false) :
    (e.absorb c d).h = (f.absorb c d).h ∧ (e.absorb c d).t0 = (f.absorb c d).t0 ∧
    (e.absorb c d).t1 = (f.absorb c d).t1 := by
  obtain ⟨hh, ht0, ht1, hbcnt, -⟩ := hi.absorbing hfin
  obtain hroom | hfull := e.bcnt_room_or_full
  · simp [Engine.absorb_room c d hroom, Engine.absorb_room c d (hbcnt ▸ hroom), hh, ht0, ht1]
  · have hfull' : f.bcnt.val = 64 := hbcnt ▸ hfull
    have hblock : e.buf.block = f.buf.block := by
      rw [← Engine.paddedBlock_full hfull, ← Engine.paddedBlock_full hfull', hi.paddedBlock_eq hfin]
    simp [Engine.absorb_full c d hfull, Engine.absorb_full c d hfull', hh, ht0, ht1, hblock]

theorem Indistinguishable.absorb (c : Cfg) (d : Byte) (hfin : e.fin = false) :
    Indistinguishable (e.absorb c d) (f.absorb c d) where
  fin := by simp [hi.fin]
  err := by simp [hi.err]
  errcode := by simp [hi.errcode]
  absorbing _ := by
    obtain ⟨-, -, -, -, hbuf⟩ := hi.absorbing hfin
    obtain ⟨hh, ht0, ht1⟩ := hi.absorb_chain c d hfin
    have haddr := hi.storeAddr_eq hfin
    refine ⟨hh, ht0, ht1, Fin.ext (by simp [haddr]), fun k hk => ?_⟩
    rw [Engine.absorb_bcnt_val] at hk
    rw [Engine.absorb_buf_read, Engine.absorb_buf_read, ← haddr]
    by_cases hka : k = e.storeAddr
    · rw [if_pos hka, if_pos hka]
    · have hlt : k.val < e.storeAddr.val := by
        have := Fin.val_ne_of_ne hka
        omega
      rw [if_neg hka, if_neg hka, hbuf k (hlt.trans_le (Nat.mod_le _ _))]
  finalised h := by simp [hfin] at h

theorem Indistinguishable.finalize_h_eq (c : Cfg) (hfin : e.fin = false) : (e.finalize c).h = (f.finalize c).h := by
  obtain ⟨hh, ht0, ht1, hbcnt, -⟩ := hi.absorbing hfin
  simp only [Engine.finalize_h, Engine.closeChain_h, hh, ht0, ht1, hbcnt, hi.paddedBlock_eq hfin]

theorem Indistinguishable.finalize (c : Cfg) (hfin : e.fin = false) :
    Indistinguishable (e.finalize c) (f.finalize c) where
  fin := by simp
  err := by simp [hi.err]
  errcode := by simp [hi.errcode]
  absorbing h := by simp at h
  finalised _ := by rw [Engine.finalize_dg_block, Engine.finalize_dg_block, hi.finalize_h_eq c hfin]

end

/-- Settles O45: command by command, the two engines take the same branch and read the same bytes. -/
theorem unspecifiedBytesAreNeverObserved : Obligations.UnspecifiedBytesAreNeverObserved := by
  intro c i e f hi
  cases i with
  | init => exact ⟨.construct c e f, rfl⟩
  | absorbB d =>
    change Indistinguishable (e.absorbCmd c d).1 (f.absorbCmd c d).1 ∧ (e.absorbCmd c d).2 = (f.absorbCmd c d).2
    cases hfin : e.fin with
    | false =>
      rw [Engine.absorbCmd_open c d hfin, Engine.absorbCmd_open c d (hi.fin ▸ hfin)]
      exact ⟨hi.absorb c d hfin, by rw [hi.err, hi.errcode]⟩
    | true =>
      rw [Engine.absorbCmd_fin c d hfin, Engine.absorbCmd_fin c d (hi.fin ▸ hfin)]
      exact hi.raise _
  | digest =>
    change Indistinguishable (e.digestCmd c).1 (f.digestCmd c).1 ∧ (e.digestCmd c).2 = (f.digestCmd c).2
    cases hfin : e.fin with
    | false =>
      rw [Engine.digestCmd_open c hfin, Engine.digestCmd_open c (hi.fin ▸ hfin)]
      refine ⟨hi.finalize c hfin, ?_⟩
      simp [Engine.respond, hi.err, hi.errcode, hi.finalize_h_eq c hfin]
    | true =>
      rw [Engine.digestCmd_fin c hfin, Engine.digestCmd_fin c (hi.fin ▸ hfin)]
      refine ⟨hi, ?_⟩
      simp [Engine.respond, hi.err, hi.errcode, hi.finalised hfin]
  | reserved => exact hi.raise _

/-! ## The invariant (R24, R27, R37) -/

theorem Engine.construct_reset : Engine.reset.construct Config.sk512 = Engine.reset := rfl

/-- Settles O35: the values of reset read off, and `INIT` on them. -/
theorem resetIsTheStateInitLeaves : Obligations.ResetIsTheStateInitLeaves :=
  ⟨rfl, rfl, rfl, rfl, rfl, rfl, rfl, rfl, rfl, Engine.construct_reset⟩

/-- `INIT` establishes the invariant; of the engine before it only the canonical form of the spaces matters. -/
theorem Engine.Inv.of_construct (c : Cfg) {e : Engine} (hbuf : e.buf.wf = true) (hdg : e.dg.wf = true) :
    (e.construct c).Inv c where
  buf_wf := hbuf
  dg_wf := hdg
  absorbing _ := .inl ⟨rfl, rfl, rfl⟩
  finalised h := absurd h (by simp)
  no_err _ := rfl
  err_code h := absurd h (by simp)

/-- Settles O37: reset is what `INIT` leaves of empty spaces. -/
theorem resetMeetsTheInvariant : Obligations.ResetMeetsTheInvariant := by
  have h := Engine.Inv.of_construct Config.sk512 (e := Engine.reset) Memory.nil_wf Memory.nil_wf
  rwa [Engine.construct_reset] at h

theorem Engine.Inv.recordFault {c : Cfg} {e : Engine} (h : e.Inv c) (k : FaultKind) : (e.recordFault k).Inv c where
  buf_wf := by simpa using h.buf_wf
  dg_wf := by simpa using h.dg_wf
  absorbing hfin := by simpa using h.absorbing (by simpa using hfin)
  finalised hfin := by simpa using h.finalised (by simpa using hfin)
  no_err herr := by simp at herr
  err_code _ := by
    rw [Engine.recordFault_errcode]
    cases herr : e.err with
    | true => simpa using h.err_code herr
    | false => cases k <;> simp

/-- The chaining clause of the invariant across `ABSORB.B`: a stored byte makes `BCNT` positive, and a processed block
adds 64 to `T0` and clears FIRST. -/
theorem Engine.Inv.absorb_chain {c : Cfg} (htags : c.tagsWf = true) {e : Engine} (h : e.Inv c) (d : Byte)
    (hfin : e.fin = false) :
    ((e.absorb c d).h = c.iv ∧ (e.absorb c d).t0 = 0 ∧ (e.absorb c d).t1 = messageTweak c) ∨
    (1 ≤ (e.absorb c d).bcnt.val ∧ (e.absorb c d).t0.toNat % 64 = 0 ∧ (e.absorb c d).t1 = c.t1TypeMsg) := by
  have hpos : 1 ≤ (e.absorb c d).bcnt.val := by simp
  obtain hroom | hfull := e.bcnt_room_or_full
  · simp only [Engine.absorb_room c d hroom] at hpos ⊢
    exact (h.absorbing hfin).imp_right fun ⟨_, ht0, ht1⟩ => ⟨hpos, ht0, ht1⟩
  · refine .inr ⟨hpos, ?_⟩
    simp only [Engine.absorb_full c d hfull, Engine.storeByte_t0, Engine.storeByte_t1, Engine.ubiBlock_t0,
      Engine.ubiBlock_t1, BitVec.toNat_add, BitVec.toNat_ofNat]
    obtain ⟨-, ht0, ht1⟩ | ⟨-, ht0, ht1⟩ := h.absorbing hfin
    · exact ⟨by rw [ht0]; rfl, by rw [ht1, clearFirst_messageTweak htags]⟩
    · exact ⟨by omega, by rw [ht1, clearFirst_t1TypeMsg htags]⟩

theorem Engine.Inv.absorb {c : Cfg} (htags : c.tagsWf = true) {e : Engine} (h : e.Inv c) (d : Byte)
    (hfin : e.fin = false) : (e.absorb c d).Inv c where
  buf_wf := by rw [Engine.absorb_buf]; exact Memory.write_wf h.buf_wf _ _
  dg_wf := by rw [Engine.absorb_dg]; exact h.dg_wf
  absorbing _ := h.absorb_chain htags d hfin
  finalised hf := by simp [hfin] at hf
  no_err herr := by simpa using h.no_err (by simpa using herr)
  err_code herr := by simpa using h.err_code (by simpa using herr)

/-- With this hardware's T1 layout, clearing FIRST of the output tweak leaves OUTPUT and FINAL (R161, R37). -/
theorem clearFirst_outputTweak_sk512 :
    clearFirst Config.sk512 (outputTweak Config.sk512) = (Config.sk512.t1TypeOut ||| Config.sk512.t1Final) := by
  decide

theorem Engine.Inv.finalize {e : Engine} (h : e.Inv Config.sk512) : (e.finalize Config.sk512).Inv Config.sk512 where
  buf_wf := Memory.zeroFrom_wf h.buf_wf _
  dg_wf := Memory.writeWords_wf h.dg_wf _
  absorbing hfin := absurd hfin (by simp)
  finalised _ := by
    refine ⟨Engine.finalize_dg_block _ e, rfl, clearFirst_outputTweak_sk512, fun a ha => ?_⟩
    rw [Engine.finalize_buf, Memory.read_zeroFrom]
    exact if_pos ha
  no_err := h.no_err
  err_code := h.err_code

/-- Every command keeps the invariant. -/
theorem Engine.Inv.command {e : Engine} (h : e.Inv Config.sk512) (i : Instr) :
    (e.command Config.sk512 i).1.Inv Config.sk512 := by
  obtain ⟨-, hcmd⟩ | ⟨d, -, hfin, hcmd⟩ | ⟨-, -, hcmd⟩ | ⟨-, -, hcmd⟩ | ⟨k, -, hcmd⟩ :=
    Engine.command_engine_cases Config.sk512 i e
  all_goals rw [hcmd]
  · exact .of_construct _ h.buf_wf h.dg_wf
  · exact h.absorb (by decide) d hfin
  · exact h.finalize
  · exact h
  · exact h.recordFault k

/-- Settles O38: an idle step changes nothing, and any other is a command. -/
theorem stepKeepsTheInvariant : Obligations.StepKeepsTheInvariant := by
  intro s t h hstep
  cases hport : s.port with
  | nil =>
    rw [step_nil hport, Host.Outcome.next.injEq] at hstep
    exact hstep ▸ h
  | cons w rest =>
    rw [step_cons hport, Host.Outcome.next.injEq] at hstep
    exact hstep ▸ h.command (decode w)

end Sys2Proof.Machine
end

section
/-! The closed form of 42_stream_buffer.md R144 and 43_finalize_output.md R165 as messages grow, and the refinement of
the session by the engine (10_state.md R36). -/

namespace Sys2Proof.Machine

/-! ## Counting blocks (R144, R165) -/

theorem blocksProcessed_succ (n : Nat) : blocksProcessed (n + 1) = n / 64 := by simp [blocksProcessed]

theorem blocksProcessed_bounds (n : Nat) : 64 * blocksProcessed n ≤ n ∧ n ≤ 64 * blocksProcessed n + 64 := by
  unfold blocksProcessed
  split <;> omega

/-- `FINALIZE` processes one block more than streaming has, also for the empty message (R165). -/
theorem messageBlocks_eq (n : Nat) : messageBlocks n = blocksProcessed n + 1 := by
  unfold messageBlocks blocksProcessed
  split <;> omega

/-! ## A message with one more byte -/

theorem paddedByte_append_of_lt {m : List Byte} {o : Nat} (h : o < m.length) (d : Byte) :
    paddedByte (m ++ [d]) o = paddedByte m o := List.getD_append _ _ _ _ h

theorem paddedByte_append_length (m : List Byte) (d : Byte) : paddedByte (m ++ [d]) m.length = d := by
  simp [paddedByte]

theorem paddedByte_of_length_le {m : List Byte} {o : Nat} (h : m.length ≤ o) : paddedByte m o = 0 :=
  List.getD_eq_default _ _ h

theorem messageWords_append {m : List Byte} {k : Nat} (h : 64 * (k + 1) ≤ m.length) (d : Byte) :
    messageWords (m ++ [d]) k = messageWords m k := by
  unfold messageWords
  congr 1
  funext a
  exact paddedByte_append_of_lt (by omega) d

/-- The chain over full blocks does not depend on the bytes after them. -/
theorem streamChain_append (c : Cfg) (m : List Byte) (d : Byte) {k : Nat} (h : 64 * k ≤ m.length) :
    streamChain c (m ++ [d]) k = streamChain c m k := by
  induction k with
  | zero => rfl
  | succ k ih => simp only [streamChain, messageWords_append h d, ih (by omega)]

/-! ## The tweak of a call -/

/-- `T1` before the cipher call of block `k` (R144). -/
theorem messageTweak_at (c : Cfg) (k : Nat) :
    (c.t1TypeMsg ||| if k = 0 then c.t1First else 0) = if k = 0 then messageTweak c else c.t1TypeMsg := by
  by_cases hk : k = 0
  · rw [if_pos hk, if_pos hk, messageTweak, BitVec.or_comm]
  · rw [if_neg hk, if_neg hk]
    exact BitVec.or_zero

/-- Before the last block the chain of the whole message is the streaming chain: no call has FINAL yet (R165, R144). -/
theorem hashChain_eq_streamChain (c : Cfg) (m : List Byte) {k : Nat} (h : k ≤ blocksProcessed m.length) :
    hashChain c m k = streamChain c m k := by
  induction k with
  | zero => rfl
  | succ k ih =>
    have hlt : k < messageBlocks m.length - 1 := by rw [messageBlocks_eq]; omega
    have hne : k ≠ messageBlocks m.length - 1 := by omega
    simp only [hashChain, streamChain, ih (by omega), callT0, callT1, if_pos hlt, if_neg hne]
    simp

/-! ## The refinement (R36) -/

/-- `INIT` and reset stand for the fresh session. -/
theorem Represents.of_construct (c : Cfg) (e : Engine) : Represents c Session.fresh (e.construct c) where
  err := rfl
  errcode := rfl
  fin := rfl
  absorbing _ := ⟨rfl, rfl, rfl, rfl, fun _ hk => absurd hk (Nat.not_lt_zero _)⟩
  finalised h := absurd h (by simp [Session.fresh])

/-- Settles O39: reset is what `INIT` leaves. -/
theorem resetStandsForAFreshSession : Obligations.ResetStandsForAFreshSession := by
  have h := Represents.of_construct Config.sk512 Engine.reset
  rwa [Engine.construct_reset] at h

/-- A fault in a session, whole (R203). -/
theorem Session.raise_eq (k : FaultKind) (a : Session) :
    a.raise k =
      ({ a with err := true, errcode := if a.err then a.errcode else k.code },
       { fault := k.code, err := true, errcode := if a.err then a.errcode else k.code, data := [] }) := by
  obtain ⟨m, f, err, code⟩ := a
  cases err <;> simp [Session.raise]

section
variable {c : Cfg} {a : Session} {e : Engine} (hr : Represents c a e)
include hr

theorem Represents.raise (k : FaultKind) :
    Represents c (a.raise k).1 (e.raise k).1 ∧ (e.raise k).2 = (a.raise k).2 := by
  rw [Engine.raise_eq, Session.raise_eq, hr.err, hr.errcode]
  exact ⟨⟨rfl, rfl, hr.fin, hr.absorbing, hr.finalised⟩, rfl⟩

/-- The buffered bytes, padded with zeros, are the next block of the padded message (R144, R165). -/
theorem Represents.paddedBlock_words (hopen : a.finalised = false) :
    blockToWords e.paddedBlock = messageWords a.message (blocksProcessed a.message.length) := by
  obtain ⟨-, -, -, hbcnt, hbuf⟩ := hr.absorbing hopen
  unfold messageWords
  congr 1
  funext i
  by_cases hi : i.val < e.bcnt.val
  · exact (if_pos hi).trans (hbuf i hi)
  · exact (if_neg hi).trans (paddedByte_of_length_le (by omega)).symm

/-- Bytes are stored at their place in the message modulo 64. -/
theorem Represents.storeAddr_val (hopen : a.finalised = false) : e.storeAddr.val = a.message.length % 64 := by
  obtain ⟨-, -, -, hbcnt, -⟩ := hr.absorbing hopen
  have hbounds := blocksProcessed_bounds a.message.length
  change e.bcnt.val % 64 = _
  omega

/-- `H` and `T` across `ABSORB.B`: unchanged while the block count is, and one step of the chain of R144 when a full
block was waiting. -/
theorem Represents.absorb_chain (htags : c.tagsWf = true) (d : Byte) (hopen : a.finalised = false) :
    (e.absorb c d).h = streamChain c (a.message ++ [d]) (a.message.length / 64) ∧
    (e.absorb c d).t0 = BitVec.ofNat 64 (64 * (a.message.length / 64)) ∧
    (e.absorb c d).t1 = if a.message.length / 64 = 0 then messageTweak c else c.t1TypeMsg := by
  have hwords := hr.paddedBlock_words hopen
  obtain ⟨hh, ht0, ht1, hbcnt, -⟩ := hr.absorbing hopen
  have hbounds := blocksProcessed_bounds a.message.length
  generalize blocksProcessed a.message.length = p at *
  obtain hroom | hfull := e.bcnt_room_or_full
  · have hp : a.message.length / 64 = p := by omega
    rw [hp, streamChain_append c _ d hbounds.1, Engine.absorb_room c d hroom]
    exact ⟨hh, ht0, ht1⟩
  · have hp : a.message.length / 64 = p + 1 := by omega
    have hclear : clearFirst c e.t1 = c.t1TypeMsg := by
      rw [ht1]
      split
      · exact clearFirst_messageTweak htags
      · exact clearFirst_t1TypeMsg htags
    have hcount : e.t0 + BitVec.ofNat 64 64 = BitVec.ofNat 64 (64 * (p + 1)) := by
      rw [ht0, ← BitVec.ofNat_add, Nat.mul_succ]
    rw [Engine.paddedBlock_full hfull] at hwords
    rw [hp, Engine.absorb_full c d hfull]
    refine ⟨?_, hcount, hclear⟩
    rw [Engine.storeByte_h, streamChain, streamChain_append c _ d hbounds.1,
      messageWords_append (by omega) d, messageTweak_at, ← hh, ← ht1, ← hcount, ← hwords, Engine.ubiBlock_h]

/-- The buffered bytes after `ABSORB.B` are the last ones of the longer message. -/
theorem Represents.absorb_buf (d : Byte) (hopen : a.finalised = false) (k : Fin 64)
    (hk : k.val ≤ e.storeAddr.val) :
    (e.absorb c d).buf.read k = paddedByte (a.message ++ [d]) (64 * (a.message.length / 64) + k.val) := by
  have haddr := hr.storeAddr_val hopen
  obtain ⟨-, -, -, hbcnt, hbuf⟩ := hr.absorbing hopen
  rw [Engine.absorb_buf_read]
  by_cases hka : k = e.storeAddr
  · have hlast : 64 * (a.message.length / 64) + k.val = a.message.length := by rw [hka]; omega
    rw [if_pos hka, hlast, paddedByte_append_length]
  · have hne := Fin.val_ne_of_ne hka
    have hbounds := blocksProcessed_bounds a.message.length
    have hsame : blocksProcessed a.message.length = a.message.length / 64 := by omega
    rw [if_neg hka, hbuf k (by omega), hsame, paddedByte_append_of_lt (by omega)]

/-- An absorbed byte is appended to the message (R51). -/
theorem Represents.absorb (htags : c.tagsWf = true) (d : Byte) (hopen : a.finalised = false) :
    Represents c { a with message := a.message ++ [d] } (e.absorb c d) where
  err := by simp [hr.err]
  errcode := by simp [hr.errcode]
  fin := by simp [hr.fin]
  absorbing _ := by
    obtain ⟨hh, ht0, ht1⟩ := hr.absorb_chain htags d hopen
    rw [List.length_append, List.length_singleton, blocksProcessed_succ]
    refine ⟨hh, ht0, ht1, ?_, fun k hk => hr.absorb_buf d hopen k ?_⟩
    · rw [Engine.absorb_bcnt_val, hr.storeAddr_val hopen]
      omega
    · rw [Engine.absorb_bcnt_val] at hk
      omega
  finalised h := by simp [hopen] at h

/-- `FINALIZE` step 1 ends the chain of the whole message (R160, R165). -/
theorem Represents.closeChain_h (hopen : a.finalised = false) :
    (e.closeChain c).h = hashChain c a.message (messageBlocks a.message.length) := by
  have hwords := hr.paddedBlock_words hopen
  obtain ⟨hh, ht0, ht1, hbcnt, -⟩ := hr.absorbing hopen
  have hbounds := blocksProcessed_bounds a.message.length
  have hcount : e.t0 + BitVec.ofNat 64 e.bcnt.val =
      callT0 a.message.length (blocksProcessed a.message.length) := by
    rw [callT0, messageBlocks_eq, if_neg (by omega), ht0, ← BitVec.ofNat_add, hbcnt,
      Nat.add_sub_cancel' hbounds.1]
  have htweak : setFinal c e.t1 = callT1 c a.message.length (blocksProcessed a.message.length) := by
    rw [setFinal, callT1, messageTweak_at, messageBlocks_eq, Nat.add_sub_cancel, if_pos rfl, ht1]
  rw [Engine.closeChain_h, messageBlocks_eq, hashChain, hashChain_eq_streamChain c _ le_rfl, hcount, htweak,
    hwords, hh]

/-- The output words of the engine are those of the message (R161, R165). -/
theorem Represents.finalize_h (hopen : a.finalised = false) : (e.finalize c).h = outputWords c a.message := by
  rw [Engine.finalize_h, hr.closeChain_h hopen, outputWords]

theorem Represents.finalize (hopen : a.finalised = false) :
    Represents c { a with finalised := true } (e.finalize c) where
  err := hr.err
  errcode := hr.errcode
  fin := rfl
  absorbing h := absurd h (by simp)
  finalised _ := by rw [Engine.finalize_dg_block, hr.finalize_h hopen, digestOf]

theorem Represents.absorbCmd (htags : c.tagsWf = true) (d : Byte) :
    Represents c (a.command c (.absorbB d)).1 (e.absorbCmd c d).1 ∧
      (e.absorbCmd c d).2 = (a.command c (.absorbB d)).2 := by
  cases hopen : a.finalised with
  | false =>
    rw [Engine.absorbCmd_open c d (hr.fin.trans hopen)]
    simp only [Session.command, hopen, Bool.false_eq_true, if_false]
    exact ⟨hopen ▸ hr.absorb htags d hopen, by rw [hr.err, hr.errcode]; rfl⟩
  | true =>
    rw [Engine.absorbCmd_fin c d (hr.fin.trans hopen)]
    simp only [Session.command, hopen, if_true]
    exact hr.raise _

theorem Represents.digestCmd :
    Represents c (a.command c .digest).1 (e.digestCmd c).1 ∧ (e.digestCmd c).2 = (a.command c .digest).2 := by
  simp only [Session.command]
  cases hopen : a.finalised with
  | false =>
    rw [Engine.digestCmd_open c (hr.fin.trans hopen)]
    refine ⟨hr.finalize hopen, ?_⟩
    simp [Engine.respond, hr.err, hr.errcode, hr.finalize_h hopen, digestOf]
  | true =>
    rw [Engine.digestCmd_fin c (hr.fin.trans hopen)]
    refine ⟨⟨hr.err, hr.errcode, hr.fin.trans hopen, fun h => absurd h (by simp),
      fun _ => hr.finalised hopen⟩, ?_⟩
    simp [Engine.respond, hr.err, hr.errcode, hr.finalised hopen]

end

/-- Settles O40: the relation is kept command by command. -/
theorem commandsRefineTheSession : Obligations.CommandsRefineTheSession := by
  intro c a e i hwf hr
  obtain ⟨-, htags, -⟩ := c.wf_iff.mp hwf
  cases i with
  | init => exact ⟨.of_construct c e, rfl⟩
  | absorbB d => exact hr.absorbCmd htags d
  | digest => exact hr.digestCmd
  | reserved => exact hr.raise _

end Sys2Proof.Machine
end

section
/-! The statement of 20_memory.md about the byte spaces BUF and DG (R50, R16). -/

namespace Sys2Proof.Machine

/-- Spaces in canonical form with equal contents are equal data (log entry 2). -/
theorem Memory.eq_of_block_eq {m n : Memory} (hm : m.wf = true) (hn : n.wf = true) (h : m.block = n.block) : m = n :=
  Memory.eq_of_read_eq hm hn (congrFun h)

/-- Settles O28: the read-out of a write, its canonical form, and the comparison of two spaces byte by byte. -/
theorem spacesReadBackWhatIsWritten : Obligations.SpacesReadBackWhatIsWritten :=
  ⟨Memory.read_write, fun _ a b hm => Memory.write_wf hm a b, fun _ _ => Memory.eq_of_block_eq⟩

end Sys2Proof.Machine
end

section
/-! The statements of 30_encoding.md: the command word `CW10` (R70 to R73, R78), the response record (R75) and the
lines of a listing (R76). -/

namespace Sys2Proof

/-! ## The fields of a command word (R70) -/

theorem opField_cases (w : CmdWord) : opField w = 0 ∨ opField w = 1 ∨ opField w = 2 ∨ opField w = 3 := by
  generalize opField w = op
  revert op
  decide

/-- A command word is its two fields. -/
theorem opField_append_dataField (w : CmdWord) : opField w ++ dataField w = w :=
  BitVec.extractLsb'_append_extractLsb' (w := 2)

/-- The mask of every row of R71 keeps `op` and drops `data`. -/
theorem and_opMask (w : CmdWord) : w &&& 0x300 = opField w ++ (0 : Byte) := by
  calc w &&& 0x300 = (opField w ++ dataField w) &&& ((3 : BitVec 2) ++ (0 : Byte)) := by
        rw [opField_append_dataField]
        rfl
    _ = (opField w &&& 3) ++ (dataField w &&& 0) := BitVec.and_append
    _ = opField w ++ (0 : Byte) := congrArg₂ (· ++ ·) (BitVec.and_allOnes (w := 2)) BitVec.and_zero

/-- The words of the reserved row are those from `0x300` on (R78). -/
theorem opField_of_le_toNat {w : CmdWord} (h : 0x300 ≤ w.toNat) : opField w = 3 := by
  have hsum : w.toNat = (opField w).toNat * 2 ^ 8 + (dataField w).toNat := by
    rw [← Machine.toNat_append_byte, opField_append_dataField]
  have hdata := (dataField w).isLt
  have hop := (opField w).isLt
  apply BitVec.eq_of_toNat_eq
  change (opField w).toNat = 3
  omega

/-! ## The decoder, row by row (R71) -/

theorem decode_of_opField_zero {w : CmdWord} (h : opField w = 0) : decode w = .init := by
  simp [decode, h]
theorem decode_of_opField_one {w : CmdWord} (h : opField w = 1) : decode w = .absorbB (dataField w) := by
  simp [decode, h]
theorem decode_of_opField_two {w : CmdWord} (h : opField w = 2) : decode w = .digest := by
  simp [decode, h]
theorem decode_of_opField_three {w : CmdWord} (h : opField w = 3) : decode w = .reserved := by
  simp [decode, h]

/-- A word selects the rows of R71 by its `op` field. -/
theorem filter_opcodeRows (w : CmdWord) :
    opcodeRows.filter (fun r => w &&& r.mask == r.matchBits) =
      opcodeRows.filter (fun r => opField w ++ (0 : Byte) == r.matchBits) := by
  have hmask : ∀ r ∈ opcodeRows, r.mask = 0x300 := by decide
  exact List.filter_congr fun r hr => by rw [hmask r hr, and_opMask]

/-- Settles O1: the mask leaves the `op` field, which is the match of one row only. -/
theorem everyWordSelectsOneRow : Obligations.EveryWordSelectsOneRow := by
  refine ⟨rfl, fun w => ⟨?_, decode_of_opField_zero, decode_of_opField_one, decode_of_opField_two,
    decode_of_opField_three⟩⟩
  rw [filter_opcodeRows]
  obtain h | h | h | h := opField_cases w
  · rw [decode_of_opField_zero h, h]
    rfl
  · rw [decode_of_opField_one h, h]
    rfl
  · rw [decode_of_opField_two h, h]
    rfl
  · rw [decode_of_opField_three h, h]
    rfl

/-- Settles O3: the decoder reads `data` under `op = 01` only. -/
theorem ignoredDataFieldIsIgnored : Obligations.IgnoredDataFieldIsIgnored := by
  intro v w hop hne
  simp only [decode, ← hop, if_neg hne]

/-- Settles O4: the listed words one by one; the words from `0x300` on by their `op` field. -/
theorem workedEncodingsDecode : Obligations.WorkedEncodingsDecode :=
  ⟨rfl, rfl, rfl, rfl, rfl, rfl, rfl, rfl, rfl, rfl, rfl, rfl,
    fun _ h => decode_of_opField_three (opField_of_le_toNat h)⟩

/-! ## The encoder (R73) -/

theorem opField_encode (i : Instr) : opField (encode i) = i.opcode := by
  cases i with
  | init => exact Laws.OpField.init
  | absorbB d => exact Laws.OpField.absorbB d
  | digest => exact Laws.OpField.digest
  | reserved => exact Laws.OpField.reserved

theorem dataField_encode_absorbB (d : Byte) : dataField (encode (.absorbB d)) = d :=
  BitVec.extractLsb'_append_eq_right

theorem decode_encode (i : Instr) : decode (encode i) = i := by
  have hop := opField_encode i
  cases i with
  | init => exact decode_of_opField_zero hop
  | absorbB d => rw [decode_of_opField_one hop, dataField_encode_absorbB]
  | digest => exact decode_of_opField_two hop
  | reserved => exact decode_of_opField_three hop

/-- Encoding what a word decodes to keeps its `op` field, and its `data` field under `ABSORB.B` only. -/
theorem encode_decode (w : CmdWord) : encode (decode w) = if opField w = 1 then w else w &&& 0x300 := by
  rw [and_opMask]
  obtain h | h | h | h := opField_cases w
  · rw [decode_of_opField_zero h, h]
    rfl
  · rw [decode_of_opField_one h, if_pos h]
    change (1 : BitVec 2) ++ dataField w = w
    rw [← h, opField_append_dataField]
  · rw [decode_of_opField_two h, h]
    rfl
  · rw [decode_of_opField_three h, h]
    rfl

/-- Settles O2: the two directions of the round trip. -/
theorem decodeAndEncodeAgree : Obligations.DecodeAndEncodeAgree :=
  ⟨fun i _ => decode_encode i, encode_decode⟩

end Sys2Proof

namespace Sys2Proof.Machine

/-- Settles O8: the step is the engine's command at the decoded word, and `complete` appends its one response. -/
theorem eachWordGetsOneResponse : Obligations.EachWordGetsOneResponse :=
  fun _ _ _ h => ⟨_, _, step_cons h⟩

/-! ## The response record (R75) -/

@[simp] theorem Engine.command_init_fault (c : Cfg) (e : Engine) : (e.command c .init).2.fault = 0 := rfl
@[simp] theorem Engine.command_digest_fault (c : Cfg) (e : Engine) : (e.command c .digest).2.fault = 0 := rfl
@[simp] theorem Engine.command_reserved_fault (c : Cfg) (e : Engine) : (e.command c .reserved).2.fault = 2 := rfl
@[simp] theorem Engine.command_absorbB_fault (c : Cfg) (d : Byte) (e : Engine) :
    (e.command c (.absorbB d)).2.fault = if e.fin then 1 else 0 := by
  change (e.absorbCmd c d).2.fault = _
  cases hfin : e.fin with
  | false => rw [Engine.absorbCmd_open c d hfin]; rfl
  | true => rw [Engine.absorbCmd_fin c d hfin]; rfl

theorem Engine.command_fault_eq_one_iff (c : Cfg) (i : Instr) (e : Engine) :
    (e.command c i).2.fault = 1 ↔ e.fin = true ∧ ∃ d, i = .absorbB d := by
  cases i <;> simp

theorem Engine.command_fault_eq_two_iff (c : Cfg) (i : Instr) (e : Engine) :
    (e.command c i).2.fault = 2 ↔ i = .reserved := by
  cases i with
  | absorbB d => cases hfin : e.fin <;> simp [hfin]
  | _ => simp

theorem Engine.command_fault_ne_three (c : Cfg) (i : Instr) (e : Engine) : (e.command c i).2.fault ≠ 3 := by
  cases i with
  | absorbB d => cases hfin : e.fin <;> simp [hfin]
  | _ => simp

/-- A response shows the fault record the command leaves; no command but `DIGEST` answers data. -/
theorem Engine.command_response (c : Cfg) (i : Instr) (e : Engine) :
    (e.command c i).2.err = (e.command c i).1.err ∧ (e.command c i).2.errcode = (e.command c i).1.errcode ∧
    (i ≠ .digest → (e.command c i).2.data = []) := by
  cases i with
  | init => exact ⟨rfl, rfl, fun _ => rfl⟩
  | absorbB d =>
    simp only [Engine.command]
    cases hfin : e.fin with
    | false => simp [Engine.absorbCmd_open c d hfin]
    | true => simp [Engine.absorbCmd_fin c d hfin, Engine.raise_eq]
  | digest => exact ⟨rfl, rfl, fun h => absurd rfl h⟩
  | reserved => exact ⟨rfl, rfl, fun _ => rfl⟩

/-- The data of `DIGEST` is `DG`, `DG[0]` first. -/
theorem Engine.command_digest_data (c : Cfg) (e : Engine) :
    (e.command c .digest).2.data = blockBytes (e.command c .digest).1.dg.block := rfl

/-- The finalising `DIGEST` answers the bytes of the output words, the least significant byte of word 0 first. -/
theorem Engine.command_digest_data_word (c : Cfg) {e : Engine} (hfin : e.fin = false) (j k : Fin 8) :
    (e.command c .digest).2.data[8 * j.val + k.val]? = some (byteOf (e.command c .digest).1.h[j] k) := by
  change (e.digestCmd c).2.data[(byteAddr j k).val]? = some (byteOf (e.digestCmd c).1.h[j] k)
  rw [Engine.digestCmd_open c hfin, Engine.respond_data, blockBytes_getElem, wordsToBytes_byteAddr]

/-- Settles O22: the fault code, the fault record and the data of a response, each by its own lemma. -/
theorem responseFieldsAsTheRecordSays : Obligations.ResponseFieldsAsTheRecordSays := by
  intro c i e
  obtain ⟨herr, herrcode, hdata⟩ := e.command_response c i
  refine ⟨e.command_fault_eq_one_iff c i, e.command_fault_eq_two_iff c i, e.command_fault_ne_three c i,
    herr, herrcode, ?_, hdata⟩
  rintro rfl
  rw [Engine.command_digest_data]
  exact ⟨blockBytes_length _, blockBytes_getElem _, fun hfin => Engine.command_digest_data_word c hfin⟩

/-! ## Listings (R76)

The printer writes an operand as two hexadecimal digits; the scanner and the number reader take them back. -/

theorem hexDigit_hexChar (v : BitVec 4) : hexDigit (hexChar v) = some v.toNat := by
  revert v
  decide

/-- A hexadecimal digit ends no token. -/
theorem hexChar_not_separator (v : BitVec 4) : (isBlank (hexChar v) || hexChar v == ';') = false := by
  revert v
  decide

/-- A line without blank or comment is one token. -/
theorem takeToken_eq_self {line : List Char} (h : ∀ ch ∈ line, (isBlank ch || ch == ';') = false) :
    takeToken line = (line, []) := by
  induction line with
  | nil => rfl
  | cons ch rest ih =>
    obtain ⟨hch, hrest⟩ := List.forall_mem_cons.mp h
    simp [takeToken, hch, ih hrest]

theorem toNat_eq_nibbles (d : Byte) : (d.extractLsb' 4 4).toNat * 16 + (d.extractLsb' 0 4).toNat = d.toNat := by
  have hd := d.isLt
  simp only [BitVec.extractLsb'_toNat, Nat.shiftRight_eq_div_pow]
  omega

theorem number_hexByte (d : Byte) : number ('0' :: 'x' :: hexByte d) = some d.toNat := by
  change digitsValue 16 hexDigit 0 (hexByte d) = some d.toNat
  simp only [hexByte, digitsValue, hexDigit_hexChar, Nat.zero_mul, Nat.zero_add, toNat_eq_nibbles]

theorem operand_hexByte (d : Byte) : operand ('0' :: 'x' :: hexByte d) = some (d.toNat, []) := by
  have htoken : takeToken ('0' :: 'x' :: hexByte d) = ('0' :: 'x' :: hexByte d, []) := by
    refine takeToken_eq_self ?_
    simp only [hexByte, List.forall_mem_cons]
    exact ⟨rfl, rfl, hexChar_not_separator _, hexChar_not_separator _, List.forall_mem_nil _⟩
  simp [operand, htoken, number_hexByte]

theorem asmAbsorb_hexByte (d : Byte) : asmAbsorb (' ' :: '#' :: '0' :: 'x' :: hexByte d) = .ok (.absorbB d) := by
  have hrange : ¬ 255 < d.toNat := by omega
  simp [asmAbsorb, skipBlanks, isBlank, operand_hexByte, hrange, restIsComment]

/-- The assembler reads a printed command back. -/
theorem asmLine_asmText {i : Instr} {line : List Char} (h : Instr.asmText i = some line) :
    asmLine line = .ok (some i) := by
  cases i with
  | init => cases h; rfl
  | absorbB d =>
    cases h
    simp [asmLine, restIsComment, skipBlanks, takeToken, isBlank, asmAbsorb_hexByte]
  | digest => cases h; rfl
  | reserved => cases h

/-- A printed listing assembles to the words of its commands, line by line. -/
theorem assemble_asmText {is : List Instr} {lines : List (List Char)}
    (h : is.map Instr.asmText = lines.map some) : assemble lines = .ok (is.map encode) := by
  induction is generalizing lines with
  | nil =>
    obtain rfl : lines = [] := List.map_eq_nil_iff.mp h.symm
    rfl
  | cons i is ih =>
    cases lines with
    | nil => cases h
    | cons line rest =>
      rw [List.map_cons, List.map_cons, List.cons.injEq] at h
      obtain ⟨hline, hrest⟩ := h
      simp only [assemble, asmLine_asmText hline, ih hrest, List.map_cons]

/-- Settles O5: by induction on the listing, each line read back by the assembler; and each word by the decoder. -/
theorem listingAssemblesToItsCommands : Obligations.ListingAssemblesToItsCommands := by
  intro is lines h
  refine ⟨assemble_asmText h, ?_⟩
  rw [List.map_map, Function.comp_def]
  simp only [decode_encode, List.map_id']

end Sys2Proof.Machine
end

section
/-! The statements of 40_threefish512.md: MIX and its inverse (R106), the subkeys (R103), the round (R109) and its form
without data movement (R110), and the cipher call (R112, R113). -/

namespace Sys2Proof.Machine

/-! ## Words and rotations (R14) -/

theorem words8_getElem (x : Words) : words8 (fun i => x[i]) = x := words_ext (words8_get _)

theorem rotl64_eq_rotateLeft {n : Nat} (h : n < 64) (a : Word) : rotl64 a n = a.rotateLeft n := by
  rw [rotl64, BitVec.rotateLeft_def, Nat.mod_eq_of_lt h]

/-- A rotation right by `n` is one left by `64 - n`, and undoes the rotation left by `n`. -/
theorem rotl64_rotl64_sub {n : Nat} (hpos : 0 < n) (hlt : n < 64) (a : Word) : rotl64 (rotl64 a n) (64 - n) = a := by
  rw [rotl64_eq_rotateLeft hlt, rotl64_eq_rotateLeft (by omega)]
  refine BitVec.eq_of_getElem_eq fun i hi => ?_
  simp only [BitVec.getElem_rotateLeft, Nat.mod_eq_of_lt hlt, Nat.mod_eq_of_lt (show 64 - n < 64 by omega)]
  split
  · rw [dif_neg (by omega)]
    congr 1
    omega
  · rw [dif_pos (by omega)]
    congr 1
    omega

/-! ## `MIX` (R106) -/

/-- The inverse R106 gives. -/
def unmix (a' b' : Word) (r : Nat) : Word × Word :=
  let b := rotl64 (b' ^^^ a') (64 - r)
  (a' - b, b)

theorem mix_snd_xor_fst (a b : Word) (r : Nat) : (mix a b r).2 ^^^ (mix a b r).1 = rotl64 b r := by
  rw [mix, BitVec.xor_assoc, BitVec.xor_self, BitVec.xor_zero]

theorem mix_fst_sub (a b : Word) (r : Nat) : (mix a b r).1 - b = a := BitVec.add_sub_cancel a b

theorem unmix_mix {r : Nat} (hpos : 0 < r) (hlt : r < 64) (a b : Word) :
    unmix (mix a b r).1 (mix a b r).2 r = (a, b) := by
  rw [unmix, mix_snd_xor_fst, rotl64_rotl64_sub hpos hlt, mix_fst_sub]

theorem mix_unmix {r : Nat} (hpos : 0 < r) (hlt : r < 64) (a b : Word) :
    mix (unmix a b r).1 (unmix a b r).2 r = (a, b) := by
  have hrot : rotl64 (rotl64 (b ^^^ a) (64 - r)) r = b ^^^ a := by
    simpa [Nat.sub_sub_self hlt.le] using rotl64_rotl64_sub (n := 64 - r) (by omega) (by omega) (b ^^^ a)
  rw [mix, unmix, hrot, BitVec.sub_add_cancel, BitVec.xor_assoc, BitVec.xor_self, BitVec.xor_zero]

theorem mix_zero (r : Nat) : mix 0#64 0#64 r = (0#64, 0#64) := by simp [mix, rotl64]

/-- Settles O29: the XOR of the two results is the rotated old `b`, which the rotation right gives back. -/
theorem mixIsUndoneByItsInverse : Obligations.MixIsUndoneByItsInverse := fun a b r hpos hlt =>
  ⟨by rw [mix_snd_xor_fst, rotl64_rotl64_sub hpos hlt], mix_fst_sub a b r⟩

/-! ## `SUBKEY` (R103) -/

theorem ksAt_add_nine (ks : Vector Word 9) (n : Nat) : ksAt ks (n + 9) = ksAt ks n := by
  simp only [ksAt, Nat.add_mod_right]

theorem tsAt_add_nine (ts : Vector Word 3) (n : Nat) : tsAt ts (n + 9) = tsAt ts n := by
  simp only [tsAt, Nat.add_mul_mod_self_left n 3 3]

/-- Settles O30: nine is a period of both schedules, so that only the index that word 7 adds is left to differ. -/
theorem subkeysNineApartDifferInWordSeven : Obligations.SubkeysNineApartDifferInWordSeven := by
  intro ks ts s i
  simp only [subkey, Nat.add_right_comm s 9, ksAt_add_nine, tsAt_add_nine]
  fin_cases i <;> simp [BitVec.ofNat_add, BitVec.add_assoc]

/-! ## `INJECT`, the four mixes and the word permutation (R104, R109, R108) -/

@[simp] theorem inject_get (x : Words) (ks : Vector Word 9) (ts : Vector Word 3) (s : Nat) (i : Fin 8) :
    (inject x ks ts s)[i.val] = x[i] + (subkey ks ts s)[i] := words8_get _ i

@[simp] theorem permute_get (c : Cfg) (y : Words) (i : Fin 8) : (permute c y)[i.val] = y[c.pi[i]] := words8_get _ i

theorem inject_bijective (ks : Vector Word 9) (ts : Vector Word 3) (s : Nat) :
    Function.Bijective fun x => inject x ks ts s :=
  Function.bijective_iff_has_inverse.mpr ⟨fun y => words8 fun i => y[i] - (subkey ks ts s)[i],
    fun x => words_ext fun i => by simp,
    fun y => words_ext fun i => by simp⟩

/-- `PI` has order 4 (R8), so four word permutations leave every word in its place. -/
theorem permute_iterate_four {c : Cfg} (h : c.piWf = true) (y : Words) : (permute c)^[4] y = y := by
  simp only [Cfg.piWf, Bool.and_eq_true, List.all_eq_true, beq_iff_eq] at h
  obtain ⟨hfour, -⟩ := h
  refine words_ext fun i => ?_
  simpa using congrArg (fun j : Fin 8 => y[j]) (hfour i (List.mem_finRange i))

theorem permute_bijective {c : Cfg} (h : c.piWf = true) : Function.Bijective (permute c) :=
  Function.bijective_iff_has_inverse.mpr ⟨(permute c)^[3], permute_iterate_four h, permute_iterate_four h⟩

/-- Every rotation amount is in 1..63 (R7). -/
theorem rotSet_range {c : Cfg} (h : c.rotWf = true) (r : Nat) {j : Nat} (hj : j < 4) :
    0 < (rotSet c r)[j] ∧ (rotSet c r)[j] < 64 := by
  simp only [Cfg.rotWf, List.all_eq_true, Bool.and_eq_true, decide_eq_true_eq, Vector.mem_toList_iff] at h
  obtain ⟨hone, hle⟩ := h (rotSet c r) (Vector.getElem_mem _) (rotSet c r)[j] (Vector.getElem_mem hj)
  exact ⟨hone, Nat.lt_succ_of_le hle⟩

/-- The inverse of the four mixes of round `r`. -/
def unmixes (c : Cfg) (y : Words) (r : Nat) : Words :=
  let rot := rotSet c r
  let m0 := unmix y[0] y[1] rot[0]
  let m1 := unmix y[2] y[3] rot[1]
  let m2 := unmix y[4] y[5] rot[2]
  let m3 := unmix y[6] y[7] rot[3]
  #v[m0.1, m0.2, m1.1, m1.2, m2.1, m2.2, m3.1, m3.2]

theorem mixes_bijective {c : Cfg} (h : c.rotWf = true) (r : Nat) : Function.Bijective fun x => mixes c x r := by
  refine Function.bijective_iff_has_inverse.mpr ⟨fun y => unmixes c y r, fun x => ?_, fun y => ?_⟩
  · refine Eq.trans ?_ (words8_getElem x)
    simp [mixes, unmixes, unmix_mix, rotSet_range h, words8]
  · refine Eq.trans ?_ (words8_getElem y)
    simp [mixes, unmixes, mix_unmix, rotSet_range h, words8]

/-- Settles O31: `MIX` of two zero words is two zero words, and a permutation of equal words is no change. -/
theorem zeroWordsAreFixedByEveryRound : Obligations.ZeroWordsAreFixedByEveryRound := by
  intro c r
  have hmixes : mixes c (words8 fun _ => 0) r = words8 fun _ => 0 := by simp [mixes, words8, mix_zero]
  refine words_ext fun i => ?_
  rw [cipherRound, hmixes]
  simp

/-! ## The cipher call (R112, R113) -/

/-- Settles O32: the kernel computes both calls. -/
theorem workedCiphertexts : Obligations.WorkedCiphertexts := ⟨by decide +kernel, by decide +kernel⟩

theorem cipherRound_bijective {c : Cfg} (h : c.wf = true) (r : Nat) :
    Function.Bijective fun x => cipherRound c x r := by
  obtain ⟨-, -, hpi, hrot⟩ := c.wf_iff.mp h
  exact (permute_bijective hpi).comp (mixes_bijective hrot r)

theorem roundInject_bijective {c : Cfg} (h : c.wf = true) (ks : Vector Word 9) (ts : Vector Word 3) (r : Nat) :
    Function.Bijective fun x => roundInject c ks ts x r := by
  by_cases hr : r % injectPeriod = 3
  · have hround := (inject_bijective ks ts (r / injectPeriod + 1)).comp (cipherRound_bijective h r)
    simpa only [roundInject, if_pos hr, Function.comp_def] using hround
  · simpa only [roundInject, if_neg hr] using cipherRound_bijective h r

/-- A fold of bijections is a bijection. -/
theorem foldl_bijective {α β : Type} {f : α → β → α} (hf : ∀ b, Function.Bijective fun a => f a b) (bs : List β) :
    Function.Bijective fun a => bs.foldl f a := by
  induction bs with
  | nil => exact Function.bijective_id
  | cons b bs ih => exact ih.comp (hf b)

/-- Settles O33: the call is a composition of injections and rounds, each of them invertible. -/
theorem cipherCallIsABijection : Obligations.CipherCallIsABijection := by
  intro c k t0 t1 h
  have hrounds := foldl_bijective (roundInject_bijective h (ksExtend c k) (tsExtend t0 t1)) (List.range roundCount)
  have hcall := hrounds.comp (inject_bijective (ksExtend c k) (tsExtend t0 t1) 0)
  rw [Function.comp_def] at hcall
  unfold e512
  exact hcall

/-! ## The form without data movement (R110)

The normative form moves the words and the other one does not, so that after `n` rounds the words of the normative form
are the words in place, permuted `n` times; and four permutations are none. -/

theorem piWf_of_piDefault {c : Cfg} (hpi : c.pi = piDefault) : c.piWf = true := by
  obtain ⟨_, _, _, _, _, pi, _, _, _, _⟩ := c
  obtain rfl : pi = piDefault := hpi
  rfl

/-- Row `k` of the table of R110: its pairs are the places from which `k` permutations bring the words to the pairs of
R109. Each row is evaluated on eight words of any value. -/
theorem mixes_iterate_permute_row {c : Cfg} (hpi : c.pi = piDefault) (r : Nat) (f : Fin 8 → Word) (k : Fin 4) :
    mixes c ((permute c)^[k] (words8 f)) r =
      (permute c)^[k]
        ((List.finRange 4).foldl (fun x j => mixInPlace x inPlacePairs[k][j] (rotSet c r)[j]) (words8 f)) := by
  obtain ⟨_, _, _, _, _, pi, _, _, _, _⟩ := c
  obtain rfl : pi = piDefault := hpi
  match k with
  | 0 => rfl
  | 1 => rfl
  | 2 => rfl
  | 3 => rfl

theorem mixes_iterate_permute {c : Cfg} (hpi : c.pi = piDefault) (x : Words) (r : Nat) :
    mixes c ((permute c)^[r % 4] x) r = (permute c)^[r % 4] (roundInPlace c x r) := by
  have hrow := mixes_iterate_permute_row hpi r (fun i => x[i]) ⟨r % 4, Nat.mod_lt _ (by decide)⟩
  rwa [words8_getElem] at hrow

theorem cipherRound_iterate_permute {c : Cfg} (hpi : c.pi = piDefault) (x : Words) (r : Nat) :
    cipherRound c ((permute c)^[r % 4] x) r = (permute c)^[r % 4 + 1] (roundInPlace c x r) := by
  rw [cipherRound, mixes_iterate_permute hpi, Function.iterate_succ_apply']

/-- One round with its injection: the words are back in their places when the subkey is injected (R111). -/
theorem roundInject_iterate_permute {c : Cfg} (hpi : c.pi = piDefault) (ks : Vector Word 9) (ts : Vector Word 3)
    (x : Words) (r : Nat) :
    roundInject c ks ts ((permute c)^[r % 4] x) r = (permute c)^[(r + 1) % 4] (roundInjectInPlace c ks ts x r) := by
  rw [roundInject, roundInjectInPlace, cipherRound_iterate_permute hpi]
  by_cases hr : r % injectPeriod = 3
  · have hlast : r % 4 = 3 := hr
    have hback : (r + 1) % 4 = 0 := by omega
    rw [if_pos hr, if_pos hr, hlast, hback, permute_iterate_four (piWf_of_piDefault hpi), Function.iterate_zero_apply]
  · have hlast : r % 4 ≠ 3 := hr
    have hnext : (r + 1) % 4 = r % 4 + 1 := by omega
    rw [if_neg hr, if_neg hr, hnext]

theorem foldl_roundInject_range {c : Cfg} (hpi : c.pi = piDefault) (ks : Vector Word 9) (ts : Vector Word 3)
    (x : Words) (n : Nat) :
    (List.range n).foldl (roundInject c ks ts) x =
      (permute c)^[n % 4] ((List.range n).foldl (roundInjectInPlace c ks ts) x) := by
  induction n with
  | zero => rfl
  | succ n ih =>
    simp only [List.range_succ, List.foldl_append, List.foldl_cons, List.foldl_nil, ih,
      roundInject_iterate_permute hpi]

/-- Settles O34: round by round, and 72 is a multiple of four. -/
theorem inPlaceFormGivesTheSameCiphertext : Obligations.InPlaceFormGivesTheSameCiphertext := by
  intro c k t0 t1 p hpi
  have hrounds : roundCount % 4 = 0 := rfl
  rw [e512, e512InPlace, foldl_roundInject_range hpi, hrounds, Function.iterate_zero_apply]

end Sys2Proof.Machine
end

section
/-! The statements of 41_ubi_block.md about `UBI_BLOCK`: what it does to T1 (R135, R23), and its words and its frame
(R130 to R134). -/

namespace Sys2Proof

/-! ## FINAL and FIRST are different bits (R8) -/

theorem isSingleBit_eq_twoPow {w : Word} (h : isSingleBit w = true) : ∃ k, w = BitVec.twoPow 64 k := by
  simp only [isSingleBit, Bool.and_eq_true, bne_iff_ne, beq_iff_eq] at h
  obtain ⟨hne, hand⟩ := h
  have hpos : w.toNat ≠ 0 := fun h0 => hne (BitVec.eq_of_toNat_eq h0)
  have hsub : (w - 1).toNat = w.toNat - 1 := by bv_omega
  have hnat : w.toNat &&& w.toNat - 1 = 0 := by
    rw [← hsub, ← BitVec.toNat_and, hand]
    rfl
  obtain ⟨k, hk⟩ := (Nat.and_sub_one_eq_zero_iff_isPowerOfTwo hpos).mp hnat
  refine ⟨k, BitVec.eq_of_toNat_eq ?_⟩
  rw [BitVec.toNat_twoPow, ← hk, Nat.mod_eq_of_lt w.isLt]

/-- Two different single bits have no bit in common. -/
theorem and_eq_zero_of_isSingleBit {v w : Word} (hv : isSingleBit v = true) (hw : isSingleBit w = true)
    (hne : v ≠ w) : v &&& w = 0 := by
  obtain ⟨i, rfl⟩ := isSingleBit_eq_twoPow hv
  obtain ⟨j, rfl⟩ := isSingleBit_eq_twoPow hw
  have hij : i ≠ j := fun h => hne (congrArg _ h)
  simp [BitVec.and_twoPow, BitVec.getLsbD_twoPow, hij]

theorem and_not_eq_self {v w : Word} (h : v &&& w = 0) : v &&& ~~~w = v := by
  calc v &&& ~~~w = v &&& w ||| v &&& ~~~w := by simp [h]
    _ = v &&& (w ||| ~~~w) := BitVec.and_or_distrib_left.symm
    _ = v := by rw [BitVec.or_not_self, BitVec.and_allOnes]

theorem Cfg.t1Final_and_t1First {c : Cfg} (h : c.flagsWf = true) : c.t1Final &&& c.t1First = 0 := by
  simp only [Cfg.flagsWf, Bool.and_eq_true, bne_iff_ne] at h
  obtain ⟨⟨hfinal, hfirst⟩, hne⟩ := h
  exact and_eq_zero_of_isSingleBit hfinal hfirst hne

end Sys2Proof

namespace Sys2Proof.Machine

/-! ## What clearing FIRST leaves of T1 (R135) -/

/-- FINAL lies outside the bit that is cleared. -/
theorem finalFlag_clearFirst {c : Cfg} (h : c.flagsWf = true) (t : Word) :
    finalFlag c (clearFirst c t) = finalFlag c t := by
  rw [finalFlag, finalFlag, clearFirst, BitVec.and_assoc, BitVec.and_comm (~~~c.t1First),
    and_not_eq_self (Cfg.t1Final_and_t1First h)]

/-- Outside FIRST no bit changes. -/
theorem clearFirst_or_right (c : Cfg) (t : Word) : clearFirst c t ||| c.t1First = t ||| c.t1First := by
  apply BitVec.eq_of_getLsbD_eq
  intro n hn
  simp only [clearFirst, BitVec.getLsbD_and, BitVec.getLsbD_or, BitVec.getLsbD_not]
  cases c.t1First.getLsbD n <;> simp [hn]

/-- Settles O23: the new T1 is the old one with FIRST cleared, and FINAL is another bit. -/
theorem ubiBlockClearsFirstOnly : Obligations.UbiBlockClearsFirstOnly := by
  intro c b n e h
  obtain ⟨hflags, -, -, -⟩ := c.wf_iff.mp h
  rw [Engine.ubiBlock_t1]
  exact ⟨firstFlag_clearFirst c e.t1, finalFlag_clearFirst hflags e.t1, clearFirst_or_right c e.t1⟩

/-! ## The words and the frame (R130 to R134) -/

theorem feedForward_get (x w : Words) (i : Fin 8) : (feedForward x w)[i] = x[i] ^^^ w[i] := words8_get _ i

/-- Settles O24: the field equations of `UBI_BLOCK`, read word by word. -/
theorem ubiBlockWritesChainAndTweak : Obligations.UbiBlockWritesChainAndTweak := by
  intro c b n e
  refine ⟨Engine.ubiBlock_t0 c b n e, Engine.ubiBlock_t1 c b n e, fun i => ?_, Engine.ubiBlock_buf c b n e,
    Engine.ubiBlock_bcnt c b n e, Engine.ubiBlock_dg c b n e, Engine.ubiBlock_fin c b n e,
    Engine.ubiBlock_err c b n e, Engine.ubiBlock_errcode c b n e⟩
  rw [Engine.ubiBlock_h, feedForward_get, blockToWords_get]

end Sys2Proof.Machine
end

section
/-! The statements of 42_stream_buffer.md: `INIT` (R140), `ABSORB.B` in its cases (R141, R147), the state after a
message (R144), and the chunk-level form (R143, R145). -/

namespace Sys2Proof.Machine

/-! ## `INIT` (R140) -/

/-- Settles O10: a word of the row decodes to `INIT`, which writes the values of R38 in any state. -/
theorem initConstructsTheSession : Obligations.InitConstructsTheSession := by
  intro s w hop
  rw [decode_of_opField_zero hop]
  rfl

/-! ## `ABSORB.B` (R141, R147) -/

/-- `ABSORB.B #d` is the word `0x100 + d` (R71): the sum has no carry, as `op` and `data` do not overlap. -/
theorem add_setWidth_eq_encode_absorbB (d : Byte) : 0x100 + d.setWidth 10 = encode (.absorbB d) := by
  apply BitVec.eq_of_toNat_eq
  have hsum : (encode (.absorbB d)).toNat = (1 : BitVec 2).toNat * 2 ^ 8 + d.toNat := toNat_append_byte 1 d
  have hd := d.isLt
  rw [hsum, BitVec.toNat_add, BitVec.toNat_setWidth]
  change (256 + d.toNat % 2 ^ 10) % 2 ^ 10 = 1 * 2 ^ 8 + d.toNat
  omega

theorem Engine.storeAddr_room {e : Engine} (h : e.bcnt.val < 64) : e.storeAddr = ⟨e.bcnt.val, h⟩ :=
  Fin.ext (Engine.storeAddr_val h)

/-- A store with room in the buffer, whole. -/
theorem Engine.storeByte_room (d : Byte) {e : Engine} (h : e.bcnt.val < 64) :
    e.storeByte d = { e with buf := e.buf.write ⟨e.bcnt.val, h⟩ d, bcnt := ⟨e.bcnt.val + 1, by omega⟩ } := by
  simp only [Engine.storeByte, Engine.storeAddr_room h]

theorem Engine.storeByte_bcnt_room (d : Byte) {e : Engine} (h : e.bcnt.val < 64) :
    (e.storeByte d).bcnt.val = e.bcnt.val + 1 := by
  rw [Engine.storeByte_bcnt_val, Engine.storeAddr_val h]

theorem exec_absorbB_open {s : State} (d : Byte) (h : s.engine.fin = false) :
    exec (.absorbB d) s = .next (s.complete
      (s.engine.absorb Config.sk512 d,
        { fault := 0, err := s.engine.err, errcode := s.engine.errcode, data := [] })) :=
  congrArg (fun r => Host.Outcome.next (s.complete r)) (Engine.absorbCmd_open Config.sk512 d h)

theorem exec_absorbB_fin {s : State} (d : Byte) (h : s.engine.fin = true) :
    exec (.absorbB d) s = .next (s.complete (s.engine.raise .useAfterFinalize)) :=
  congrArg (fun r => Host.Outcome.next (s.complete r)) (Engine.absorbCmd_fin Config.sk512 d h)

/-- Settles O11: the three cases are the fault, the store, and the block processor followed by the store. -/
theorem absorbStoresOrProcesses : Obligations.AbsorbStoresOrProcesses := by
  intro s d
  refine ⟨?_, fun hfin => ?_, fun hfin hroom => ?_, fun hfin hfull => ?_⟩
  · rw [add_setWidth_eq_encode_absorbB, decode_encode]
  · rw [exec_absorbB_fin d hfin, Engine.raise_eq]
    rfl
  · rw [exec_absorbB_open d hfin, Engine.absorb_room _ d hroom, Engine.storeByte_room d hroom]
    rfl
  · rw [exec_absorbB_open d hfin, Engine.absorb_full _ d hfull]
    rfl

/-- Settles O15: the only byte written is the one at the store address, and without a full block nothing is
processed. -/
theorem absorbChangesOneByteOfBuf : Obligations.AbsorbChangesOneByteOfBuf := by
  intro s t d hfin hexec
  rw [exec_absorbB_open d hfin, Host.Outcome.next.injEq] at hexec
  subst hexec
  simp only [State.complete_engine]
  refine ⟨(Engine.absorb_buf_read ..).trans (if_pos rfl), fun a ha => (Engine.absorb_buf_read ..).trans (if_neg ha),
    Engine.absorb_dg .., Engine.absorb_fin .., Engine.absorb_err .., Engine.absorb_errcode .., rfl, fun hroom => ?_⟩
  rw [Engine.absorb_room _ d hroom]
  exact ⟨rfl, rfl, rfl⟩

/-- Settles O21: the command is a fault, which touches neither `FIN` nor `DG`, all that the later `DIGEST` reads. -/
theorem absorbAfterDigestKeepsTheDigest : Obligations.AbsorbAfterDigestKeepsTheDigest := by
  intro c d e hfin
  have hcmd : e.command c (.absorbB d) = e.raise .useAfterFinalize := Engine.absorbCmd_fin c d hfin
  have hfin' : (e.recordFault .useAfterFinalize).fin = true := by simpa using hfin
  have hdata : ((e.recordFault .useAfterFinalize).digestCmd c).2.data = (e.digestCmd c).2.data := by
    simp [Engine.digestCmd_fin c hfin, Engine.digestCmd_fin c hfin']
  rw [hcmd]
  exact ⟨rfl, Engine.recordFault_h _ e, Engine.recordFault_t0 _ e, Engine.recordFault_t1 _ e,
    Engine.recordFault_buf _ e, Engine.recordFault_bcnt _ e, Engine.recordFault_dg _ e,
    Engine.recordFault_fin _ e, hdata⟩

/-! ## A run of `ABSORB.B` while `FIN = 0` -/

/-- The engine after the bytes `b`, absorbed one by one. -/
def Engine.absorbAll (c : Cfg) (b : List Byte) (e : Engine) : Engine := b.foldl (fun f d => f.absorb c d) e

@[simp] theorem Engine.absorbAll_nil (c : Cfg) (e : Engine) : e.absorbAll c [] = e := rfl
@[simp] theorem Engine.absorbAll_cons (c : Cfg) (d : Byte) (b : List Byte) (e : Engine) :
    e.absorbAll c (d :: b) = (e.absorb c d).absorbAll c b := rfl

theorem Engine.absorbAll_append (c : Cfg) (a b : List Byte) (e : Engine) :
    e.absorbAll c (a ++ b) = (e.absorbAll c a).absorbAll c b := List.foldl_append

@[simp] theorem Engine.absorbAll_fin (c : Cfg) (b : List Byte) (e : Engine) : (e.absorbAll c b).fin = e.fin := by
  induction b generalizing e with
  | nil => rfl
  | cons d b ih => rw [Engine.absorbAll_cons, ih, Engine.absorb_fin]

/-- The run of the `ABSORB.B` commands of some bytes absorbs them one by one. -/
theorem Engine.run_ingest (c : Cfg) (b : List Byte) {e : Engine} (hfin : e.fin = false) :
    (e.run c (ingest b)).1 = e.absorbAll c b := by
  induction b generalizing e with
  | nil => rfl
  | cons d b ih =>
    have hcmd : (e.command c (.absorbB d)).1 = e.absorb c d := congrArg Prod.fst (Engine.absorbCmd_open c d hfin)
    change ((e.command c (.absorbB d)).1.run c (ingest b)).1 = _
    rw [hcmd, ih (by simpa using hfin), Engine.absorbAll_cons]

/-- Making room twice is making room once, so a waiting full block may be processed before the next byte arrives. -/
theorem Engine.absorb_makeRoom (c : Cfg) (d : Byte) (e : Engine) : (e.makeRoom c).absorb c d = e.absorb c d := by
  rw [Engine.absorb, Engine.makeRoom_room c (e.makeRoom_bcnt_lt c), Engine.absorb]

theorem Engine.absorbAll_makeRoom (c : Cfg) {b : List Byte} (hb : b ≠ []) (e : Engine) :
    (e.makeRoom c).absorbAll c b = e.absorbAll c b := by
  cases b with
  | nil => exact absurd rfl hb
  | cons d b => simp only [Engine.absorbAll_cons, Engine.absorb_makeRoom]

/-! ## The state after a message (R144) -/

/-- Absorbed bytes are appended to the message of the session, in order (R51). -/
theorem Represents.absorbAll {c : Cfg} (htags : c.tagsWf = true) {a : Session} {e : Engine} (hr : Represents c a e)
    (hopen : a.finalised = false) (b : List Byte) :
    Represents c { a with message := a.message ++ b } (e.absorbAll c b) := by
  induction b generalizing a e with
  | nil => simpa using hr
  | cons d b ih => simpa using ih (hr.absorb htags d hopen) hopen

theorem some_paddedByte {m : List Byte} {o : Nat} (h : o < m.length) : some (paddedByte m o) = m[o]? := by
  rw [paddedByte, List.getD_eq_getElem _ _ h, List.getElem?_eq_getElem h]

/-- Settles O41: `INIT` stands for the fresh session and every byte is appended to its message, so that the engine
stands for the session of the whole message; its closed form is read off. -/
theorem stateAfterAMessage : Obligations.StateAfterAMessage := by
  intro c m e hwf
  obtain ⟨-, htags, -⟩ := c.wf_iff.mp hwf
  have hrun : (e.run c (.init :: ingest m)).1 = (e.construct c).absorbAll c m := Engine.run_ingest c m rfl
  have hr : Represents c { Session.fresh with message := m } ((e.construct c).absorbAll c m) :=
    (Represents.of_construct c e).absorbAll htags rfl m
  obtain ⟨hh, ht0, ht1, hbcnt, hbuf⟩ := hr.absorbing rfl
  rw [hrun]
  refine ⟨hh, ht0, ht1, hbcnt, fun k hk => ?_, hr.fin, hr.err, hr.errcode⟩
  have hlt : 64 * blocksProcessed m.length + k.val < m.length := by
    dsimp only at hbcnt
    omega
  rw [hbuf k hk, some_paddedByte hlt]

/-! ## What is not observable, along a run -/

theorem Indistinguishable.refl (e : Engine) : Indistinguishable e e :=
  ⟨rfl, rfl, rfl, fun _ => ⟨rfl, rfl, rfl, rfl, fun _ _ => rfl⟩, fun _ => rfl⟩

theorem Indistinguishable.trans {e f g : Engine} (hef : Indistinguishable e f) (hfg : Indistinguishable f g) :
    Indistinguishable e g where
  fin := hef.fin.trans hfg.fin
  err := hef.err.trans hfg.err
  errcode := hef.errcode.trans hfg.errcode
  absorbing hfin := by
    obtain ⟨hh, ht0, ht1, hbcnt, hbuf⟩ := hef.absorbing hfin
    obtain ⟨hh', ht0', ht1', hbcnt', hbuf'⟩ := hfg.absorbing (hef.fin ▸ hfin)
    exact ⟨hh.trans hh', ht0.trans ht0', ht1.trans ht1', hbcnt.trans hbcnt',
      fun k hk => (hbuf k hk).trans (hbuf' k (hbcnt ▸ hk))⟩
  finalised hfin := (hef.finalised hfin).trans (hfg.finalised (hef.fin ▸ hfin))

/-- With an empty buffer no byte of `BUF` is observable (R26). -/
theorem Indistinguishable.of_empty {e : Engine} (h : e.bcnt = 0) (m : Memory) :
    Indistinguishable e { e with buf := m } :=
  ⟨rfl, rfl, rfl, fun _ => ⟨rfl, rfl, rfl, rfl, fun k hk => absurd hk (by simp [h])⟩, fun _ => rfl⟩

theorem Indistinguishable.absorbAll {e f : Engine} (hi : Indistinguishable e f) (c : Cfg) (b : List Byte)
    (hfin : e.fin = false) : Indistinguishable (e.absorbAll c b) (f.absorbAll c b) := by
  induction b generalizing e f with
  | nil => exact hi
  | cons d b ih => exact ih (hi.absorb c d hfin) (by simpa using hfin)

/-! ## The chunk-level form (R143) -/

/-- Storing the bytes of a chunk writes `BUF` and `BCNT` only. -/
theorem Engine.appendChunk_frame (ch : List Byte) (e : Engine) :
    e.appendChunk ch = { e with buf := (e.appendChunk ch).buf, bcnt := (e.appendChunk ch).bcnt } := by
  induction ch generalizing e with
  | nil => rfl
  | cons d ch ih => exact ih (e.storeByte d)

/-- While the bytes fit, storing them is absorbing them: no block is processed before the 65th byte. -/
theorem Engine.appendChunk_eq_absorbAll (c : Cfg) {ch : List Byte} {e : Engine} (h : e.bcnt.val + ch.length ≤ 64) :
    e.appendChunk ch = e.absorbAll c ch := by
  induction ch generalizing e with
  | nil => rfl
  | cons d ch ih =>
    rw [List.length_cons] at h
    have hroom : e.bcnt.val < 64 := by omega
    have hnext := Engine.storeByte_bcnt_room d hroom
    rw [Engine.appendChunk, ih (by omega), Engine.absorbAll_cons, Engine.absorb_room c d hroom]

theorem Engine.appendChunk_bcnt_val {ch : List Byte} {e : Engine} (h : e.bcnt.val + ch.length ≤ 64) :
    (e.appendChunk ch).bcnt.val = e.bcnt.val + ch.length := by
  induction ch generalizing e with
  | nil => rfl
  | cons d ch ih =>
    rw [List.length_cons] at h
    have hnext := Engine.storeByte_bcnt_room d (e := e) (by omega)
    rw [Engine.appendChunk, ih (by omega), hnext, List.length_cons]
    omega

/-- The bytes of a chunk stand in `BUF` from `BCNT` on, after the buffered ones. -/
theorem Engine.appendChunk_buf_read {ch : List Byte} {e : Engine} (h : e.bcnt.val + ch.length ≤ 64) {a : Fin 64}
    (ha : a.val < e.bcnt.val + ch.length) :
    (e.appendChunk ch).buf.read a =
      if a.val < e.bcnt.val then e.buf.read a else ch.getD (a.val - e.bcnt.val) 0 := by
  induction ch generalizing e with
  | nil => exact (if_pos ha).symm
  | cons d ch ih =>
    rw [List.length_cons] at h ha
    have hroom : e.bcnt.val < 64 := by omega
    have hnext := Engine.storeByte_bcnt_room d hroom
    rw [Engine.appendChunk, ih (by omega) (by omega), hnext, Engine.storeByte_buf, Memory.read_write,
      Engine.storeAddr_room hroom]
    obtain hlt | heq | hgt := Nat.lt_trichotomy a.val e.bcnt.val
    · rw [if_pos (by omega), if_neg (Fin.ne_of_val_ne hlt.ne), if_pos hlt]
    · rw [if_pos (by omega), if_pos (Fin.ext heq), if_neg (by omega), heq, Nat.sub_self]
      rfl
    · obtain ⟨i, hi⟩ := Nat.exists_eq_add_of_lt hgt
      have htail : a.val - (e.bcnt.val + 1) = i := by omega
      have hwhole : a.val - e.bcnt.val = i + 1 := by omega
      rw [if_neg (by omega), if_neg (by omega), htail, hwhole]
      rfl

/-- The first 64 bytes of a chunk, stored from address 0 on, are its first block. -/
theorem Engine.appendChunk_take_block {ch : List Byte} {e : Engine} (hempty : e.bcnt = 0) (h : 64 < ch.length) :
    (e.appendChunk (ch.take 64)).buf.block = chunkBlock ch := by
  have hbcnt : e.bcnt.val = 0 := by rw [hempty, Fin.val_zero]
  have hlen : (ch.take 64).length = 64 := List.length_take_of_le h.le
  funext a
  rw [Memory.block, Engine.appendChunk_buf_read (by omega) (by omega), if_neg (by omega), hbcnt, chunkBlock,
    Nat.sub_zero, List.getD_eq_getElem?_getD, List.getD_eq_getElem?_getD, List.getElem?_take_of_lt a.isLt]

/-- A whole block taken straight from the chunk is that block absorbed byte by byte and then processed, but for what
`BUF` holds (R143, R141). -/
theorem Indistinguishable.ubiBlock_chunkBlock (c : Cfg) {ch : List Byte} {e : Engine} (hempty : e.bcnt = 0)
    (h : 64 < ch.length) :
    Indistinguishable (e.ubiBlock c (chunkBlock ch) 64) ((e.absorbAll c (ch.take 64)).makeRoom c) := by
  have hbcnt : e.bcnt.val = 0 := by rw [hempty, Fin.val_zero]
  have hlen : (ch.take 64).length = 64 := List.length_take_of_le h.le
  have hfull : (e.appendChunk (ch.take 64)).bcnt.val = 64 := by
    rw [Engine.appendChunk_bcnt_val (by omega), hbcnt, hlen]
  have hroom : (e.appendChunk (ch.take 64)).makeRoom c =
      { e.ubiBlock c (chunkBlock ch) 64 with buf := (e.appendChunk (ch.take 64)).buf } := by
    rw [Engine.makeRoom_full c hfull, Engine.appendChunk_take_block hempty h, Engine.appendChunk_frame]
    simp only [Engine.ubiBlock, hempty]
  rw [← Engine.appendChunk_eq_absorbAll c (by omega), hroom]
  exact .of_empty (e := e.ubiBlock c (chunkBlock ch) 64) hempty _

theorem Engine.chunkBlocks_fits (c : Cfg) (fuel : Nat) {ch : List Byte} (e : Engine) (h : ch.length ≤ 64) :
    e.chunkBlocks c fuel ch = (e, ch) := by
  cases fuel with
  | zero => rfl
  | succ fuel => exact if_neg (by omega)

theorem Engine.chunkBlocks_long (c : Cfg) (fuel : Nat) {ch : List Byte} (e : Engine) (h : 64 < ch.length) :
    e.chunkBlocks c (fuel + 1) ch = (e.ubiBlock c (chunkBlock ch) 64).chunkBlocks c fuel (ch.drop 64) :=
  if_pos h

theorem Engine.appendChunk_chunkBlocks (c : Cfg) (fuel : Nat) {ch : List Byte} {e : Engine} (hempty : e.bcnt = 0)
    (h : ch.length ≤ 64) :
    (e.chunkBlocks c fuel ch).1.appendChunk (e.chunkBlocks c fuel ch).2 = e.absorbAll c ch := by
  have hfit : e.bcnt.val + ch.length ≤ 64 := by rwa [hempty, Fin.val_zero, Nat.zero_add]
  rw [Engine.chunkBlocks_fits c fuel e h, Engine.appendChunk_eq_absorbAll c hfit]

/-- The loop of R143 and the store after it: what is left after each block fits or is another block. -/
theorem Indistinguishable.chunkBlocks (c : Cfg) {fuel : Nat} {ch : List Byte} {e : Engine} (hfuel : ch.length ≤ fuel)
    (hempty : e.bcnt = 0) (hfin : e.fin = false) :
    Indistinguishable ((e.chunkBlocks c fuel ch).1.appendChunk (e.chunkBlocks c fuel ch).2) (e.absorbAll c ch) := by
  induction fuel generalizing ch e with
  | zero =>
    rw [Engine.appendChunk_chunkBlocks c 0 hempty (by omega)]
    exact .refl _
  | succ fuel ih =>
    obtain hlong | hfits := Nat.lt_or_ge 64 ch.length
    · have hrest : ch.drop 64 ≠ [] := List.drop_eq_nil_iff.not.mpr (by omega)
      have hdrop : (ch.drop 64).length ≤ fuel := by
        rw [List.length_drop]
        omega
      have hsplit : e.absorbAll c ch = ((e.absorbAll c (ch.take 64)).makeRoom c).absorbAll c (ch.drop 64) := by
        rw [Engine.absorbAll_makeRoom c hrest, ← Engine.absorbAll_append, List.take_append_drop]
      have hblock := Indistinguishable.ubiBlock_chunkBlock c hempty hlong
      rw [Engine.chunkBlocks_long c fuel e hlong, hsplit]
      have hloop := ih (e := e.ubiBlock c (chunkBlock ch) 64) hdrop hempty hfin
      exact hloop.trans (hblock.absorbAll c _ hfin)
    · rw [Engine.appendChunk_chunkBlocks c (fuel + 1) hempty hfits]
      exact .refl _

theorem Engine.chunkFill_empty (c : Cfg) (ch : List Byte) {e : Engine} (h : e.bcnt = 0) :
    e.chunkFill c ch = (e, ch) := if_neg (by simp [h])

/-- `if BCNT > 0` of R143, for a chunk that does not fit: what the buffered block lacks is absorbed, and room
is made. -/
theorem Engine.chunkFill_pending (c : Cfg) {ch : List Byte} {e : Engine} (hpos : 0 < e.bcnt.val)
    (hlong : 64 < e.bcnt.val + ch.length) :
    e.chunkFill c ch =
      ((e.absorbAll c (ch.take (64 - e.bcnt.val))).makeRoom c, ch.drop (64 - e.bcnt.val)) := by
  have hlen : (ch.take (64 - e.bcnt.val)).length = 64 - e.bcnt.val := List.length_take_of_le (by omega)
  have hfull : (e.appendChunk (ch.take (64 - e.bcnt.val))).bcnt.val = 64 := by
    rw [Engine.appendChunk_bcnt_val (by omega)]
    omega
  rw [← Engine.appendChunk_eq_absorbAll c (by omega), Engine.makeRoom_full c hfull]
  exact if_pos hpos

theorem Engine.chunkFill_bcnt (c : Cfg) (ch : List Byte) (e : Engine) : (e.chunkFill c ch).1.bcnt = 0 := by
  unfold Engine.chunkFill
  split
  · rfl
  next hpos => exact Fin.ext (Nat.eq_zero_of_not_pos hpos)

/-- Absorbing the bytes the fill keeps back completes the chunk. -/
theorem Engine.chunkFill_absorbAll (c : Cfg) {ch : List Byte} {e : Engine} (hlong : 64 < e.bcnt.val + ch.length) :
    (e.chunkFill c ch).1.absorbAll c (e.chunkFill c ch).2 = e.absorbAll c ch := by
  obtain hempty | hpos := Nat.eq_zero_or_pos e.bcnt.val
  · rw [Engine.chunkFill_empty c ch (Fin.ext hempty)]
  · have hrest : ch.drop (64 - e.bcnt.val) ≠ [] := List.drop_eq_nil_iff.not.mpr (by omega)
    rw [Engine.chunkFill_pending c hpos hlong, Engine.absorbAll_makeRoom c hrest, ← Engine.absorbAll_append,
      List.take_append_drop]

theorem Engine.chunkFill_fin (c : Cfg) (ch : List Byte) (e : Engine) : (e.chunkFill c ch).1.fin = e.fin := by
  unfold Engine.chunkFill
  split
  · change (e.appendChunk (ch.take (64 - e.bcnt.val))).fin = e.fin
    rw [Engine.appendChunk_frame]
  · rfl

/-- The chunk-level form against the bytes absorbed one by one (R143). -/
theorem Indistinguishable.ingestChunk (c : Cfg) (ch : List Byte) {e : Engine} (hfin : e.fin = false) :
    Indistinguishable (e.ingestChunk c ch) (e.absorbAll c ch) := by
  rw [Engine.ingestChunk]
  by_cases hlong : e.bcnt.val + ch.length > 64
  · rw [if_pos hlong, ← Engine.chunkFill_absorbAll c hlong]
    exact .chunkBlocks c le_rfl (e.chunkFill_bcnt c ch) ((e.chunkFill_fin c ch).trans hfin)
  · rw [if_neg hlong, Engine.appendChunk_eq_absorbAll c (by omega)]
    exact .refl _

/-- Settles O43: the `ABSORB.B` commands absorb the bytes of the chunk one by one, and so does the chunk-level form but
for what no command can tell. -/
theorem chunkFormIsTheRunOfItsBytes : Obligations.ChunkFormIsTheRunOfItsBytes := by
  intro c e ch hfin
  rw [Engine.run_ingest c ch hfin]
  exact .ingestChunk c ch hfin

/-! ## Chunk boundaries (R145) -/

theorem Engine.foldl_run_ingest (c : Cfg) (pieces : List (List Byte)) {e : Engine} (hfin : e.fin = false) :
    pieces.foldl (fun f piece => (f.run c (ingest piece)).1) e = e.absorbAll c pieces.flatten := by
  induction pieces generalizing e with
  | nil => rfl
  | cons piece rest ih =>
    rw [List.foldl_cons, Engine.run_ingest c piece hfin, ih (by simpa using hfin), List.flatten_cons,
      Engine.absorbAll_append]

theorem Indistinguishable.foldl_ingestChunk (c : Cfg) (pieces : List (List Byte)) {e : Engine}
    (hfin : e.fin = false) :
    Indistinguishable (pieces.foldl (fun f piece => f.ingestChunk c piece) e) (e.absorbAll c pieces.flatten) := by
  induction pieces generalizing e with
  | nil => exact .refl _
  | cons piece rest ih =>
    have hpiece := Indistinguishable.ingestChunk c piece hfin
    have hopen : (e.ingestChunk c piece).fin = false := hpiece.fin.trans (by simpa using hfin)
    rw [List.foldl_cons, List.flatten_cons, Engine.absorbAll_append]
    exact (ih hopen).trans (hpiece.absorbAll c rest.flatten hopen)

/-- Settles O44: every way of ingesting the pieces leaves the engine of the joined bytes, but for what no command can
tell, and so `DIGEST` answers alike. -/
theorem chunkBoundariesAreNotObservable : Obligations.ChunkBoundariesAreNotObservable := by
  intro c e pieces hfin
  have hdigest {f g : Engine} (hi : Indistinguishable f g) :
      (f.command c .digest).2 = (g.command c .digest).2 := (unspecifiedBytesAreNeverObserved c .digest f g hi).2
  simp only [Engine.run_ingest c _ hfin, Engine.foldl_run_ingest c pieces hfin]
  exact ⟨trivial, hdigest (.foldl_ingestChunk c pieces hfin), hdigest (.ingestChunk c _ hfin)⟩

end Sys2Proof.Machine
end

section
/-! The statements of 43_finalize_output.md: `DIGEST` in its two cases (R160 to R163, R166), and the digest a whole
session answers (R165). -/

namespace Sys2Proof.Machine

/-! ## `DIGEST` (R160 to R163, R166) -/

/-- `FINALIZE` step 1 at this hardware's FINAL bit (R160; log entry 1). -/
theorem Engine.closeChain_h_sk512 (e : Engine) : (e.closeChain Config.sk512).h = e.messageChain :=
  e.closeChain_h Config.sk512

/-- The output tweak, FIRST, FINAL and OUTPUT together, in this hardware's T1 layout (R161; log entry 1). -/
theorem outputTweak_sk512 : outputTweak Config.sk512 = 0xFF00000000000000 := by decide

/-- `FINALIZE` leaves in `H` the output block, as R161 prints it. -/
theorem Engine.finalize_h_sk512 (e : Engine) : (e.finalize Config.sk512).h = e.outputChain := by
  rw [Engine.finalize_h, Engine.closeChain_h_sk512, outputTweak_sk512]
  rfl

/-- The block processor has cleared FIRST of the output tweak (R135, R166). -/
theorem Engine.finalize_t1_sk512 (e : Engine) : (e.finalize Config.sk512).t1 = 0xBF00000000000000 :=
  clearFirst_outputTweak_sk512.trans (by decide)

theorem Engine.finalize_buf_block (c : Cfg) (e : Engine) : (e.finalize c).buf.block = e.paddedBlock :=
  Memory.block_zeroFrom e

theorem exec_digest_open {s : State} (h : s.engine.fin = false) :
    exec .digest s = .next (s.complete
      (s.engine.finalize Config.sk512,
        { fault := 0, err := s.engine.err, errcode := s.engine.errcode
          data := blockBytes (wordsToBytes s.engine.outputChain) })) := by
  rw [← Engine.finalize_h_sk512]
  exact congrArg (fun r => Host.Outcome.next (s.complete r)) (Engine.digestCmd_open Config.sk512 h)

theorem exec_digest_fin {s : State} (h : s.engine.fin = true) :
    exec .digest s = .next (s.complete (s.engine, s.engine.respond noFault (blockBytes s.engine.dg.block))) :=
  congrArg (fun r => Host.Outcome.next (s.complete r)) (Engine.digestCmd_fin Config.sk512 h)

/-- Settles O12: the state is what `FINALIZE` leaves, whose chaining value is the output block. -/
theorem firstDigestFinalises : Obligations.FirstDigestFinalises := by
  intro s hfin
  have hdg : (s.engine.finalize Config.sk512).dg.block = wordsToBytes s.engine.outputChain := by
    rw [Engine.finalize_dg_block, Engine.finalize_h_sk512]
  exact ⟨_, exec_digest_open hfin, s.engine.finalize_h_sk512, Engine.finalize_t0 _ _, s.engine.finalize_t1_sk512, hdg,
    Engine.finalize_fin _ _, Engine.finalize_buf_block _ _, Engine.finalize_bcnt _ _, Engine.finalize_err _ _,
    Engine.finalize_errcode _ _, rfl, rfl⟩

/-- Settles O17: of `BUF` finalisation writes the padding only, which starts at `BCNT`. -/
theorem firstDigestKeepsTheBufferedBytes : Obligations.FirstDigestKeepsTheBufferedBytes := by
  intro s t hfin hexec
  rw [exec_digest_open hfin, Host.Outcome.next.injEq] at hexec
  subst hexec
  have hread (a : Fin 64) : (s.engine.finalize Config.sk512).buf.read a =
      if s.engine.bcnt.val ≤ a.val then 0 else s.engine.buf.read a := Memory.read_zeroFrom _ _ a
  exact ⟨fun a ha => (hread a).trans (if_neg (Nat.not_le.mpr ha)), fun a ha => (hread a).trans (if_pos ha),
    Engine.finalize_bcnt _ _, Engine.finalize_err _ _, Engine.finalize_errcode _ _, rfl⟩

/-- Settles O13: with `FIN = 1` the command is the response alone. -/
theorem laterDigestIsALookup : Obligations.LaterDigestIsALookup := fun _ hfin => exec_digest_fin hfin

/-! ## A run of the machine (R242) -/

/-- One step of the machine per presented word runs the commands of the port in order, from any engine. -/
theorem core_run_port (port : List CmdWord) (e : Engine) (rs : List Response) :
    Host.Core.run core port.length { engine := e, port := port, responses := rs } =
      .next
        { engine := (e.run Config.sk512 (port.map decode)).1
          port := []
          responses := rs ++ (e.run Config.sk512 (port.map decode)).2 } := by
  induction port generalizing e rs with
  | nil => rw [List.map_nil, Engine.run, List.append_nil]; rfl
  | cons w rest ih =>
    have hstep : core.step { engine := e, port := w :: rest, responses := rs } = .next
        { engine := (e.command Config.sk512 (decode w)).1
          port := rest
          responses := rs ++ [(e.command Config.sk512 (decode w)).2] } :=
      step_cons (s := ⟨e, w :: rest, rs⟩) rfl
    simp only [List.length_cons, Host.Core.run, hstep, ih, List.map_cons, Engine.run, List.append_assoc,
      List.singleton_append]

theorem Engine.run_length (c : Cfg) (is : List Instr) (e : Engine) : (e.run c is).2.length = is.length := by
  induction is generalizing e with
  | nil => rfl
  | cons i is ih => rw [Engine.run, List.length_cons, ih, List.length_cons]

theorem map_decode_map_encode (is : List Instr) : (is.map encode).map decode = is := by
  simp [Function.comp_def, decode_encode]

/-! ## The digest of a session (R165) -/

/-- `INIT` and a message, from any engine: the engine stands for the open session of that message (R144). -/
theorem Represents.run_init_ingest {c : Cfg} (htags : c.tagsWf = true) (m : List Byte) (e : Engine) :
    Represents c { Session.fresh with message := m } (e.run c (.init :: ingest m)).1 := by
  have hrun : (e.run c (.init :: ingest m)).1 = (e.construct c).absorbAll c m := Engine.run_ingest c m rfl
  rw [hrun]
  exact (Represents.of_construct c e).absorbAll htags rfl m

/-- `DIGEST` after `INIT` and a message answers last, with the digest of the message. -/
theorem Engine.run_session_getLast {c : Cfg} (htags : c.tagsWf = true) (m : List Byte) (e : Engine) :
    (e.run c (.init :: (ingest m ++ [.digest]))).2.getLast? =
      some { fault := 0, err := false, errcode := 0, data := digestOf c m } := by
  obtain ⟨-, hresp⟩ := (Represents.run_init_ingest htags m e).digestCmd
  rw [← List.cons_append, Engine.run_append]
  exact List.getLast?_concat.trans (congrArg some hresp)

/-- Settles O42: the machine's run is the engine's run of the session's commands, and the last response of that run is
the session's answer to `DIGEST`. -/
theorem sessionAnswersTheDigestOfItsMessage : Obligations.SessionAnswersTheDigestOfItsMessage := by
  intro s m hport
  have hlen : (Instr.init :: (ingest m ++ [Instr.digest])).length = m.length + 2 := by simp [ingest]
  have hrun := core_run_port s.port s.engine s.responses
  rw [hport, map_decode_map_encode, List.length_map, hlen] at hrun
  refine ⟨_, hport ▸ hrun, rfl, ?_, ?_⟩
  · rw [List.length_append, Engine.run_length, hlen]
  · rw [List.getLast?_append, Engine.run_session_getLast (by decide)]
    rfl

end Sys2Proof.Machine
end

section
/-! The statements of 44_host_layer.md: the byte sequences of typed values, the commands they expand to, and the
hexadecimal view of the digest. -/

namespace Sys2Proof.Machine

/-! ## Little-endian digits (R183, R184) -/

@[simp] theorem leBytes_length (n : Nat) (v : BitVec (8 * n)) : (leBytes n v).length = n := by simp [leBytes]

/-- The lowest `n` digits of `x` in base 256 sum to `x` modulo `256 ^ n`: the lowest digit is split off, the others are
the digits of `x / 256`. -/
theorem foldr_base256_digits (n x : Nat) :
    (List.range n).foldr (fun k acc => x / 256 ^ k % 256 + 256 * acc) 0 = x % 256 ^ n := by
  induction n generalizing x with
  | zero => simp [Nat.mod_one]
  | succ n ih =>
    have hdigit (k : Nat) : x / 256 ^ (k + 1) = x / 256 / 256 ^ k := by rw [Nat.div_div_eq_div_mul, Nat.pow_succ']
    rw [List.range_succ_eq_map, List.foldr_cons, List.foldr_map, Nat.pow_succ', Nat.mod_mul]
    simp only [Nat.succ_eq_add_one, hdigit, ih, Nat.pow_zero, Nat.div_one]

/-- Byte `k` of a value is its digit `k` in base 256, and the value is below `256 ^ n`, so no digit is lost. -/
theorem foldr_leBytes (n : Nat) (v : BitVec (8 * n)) :
    (leBytes n v).foldr (fun b acc => b.toNat + 256 * acc) 0 = v.toNat := by
  have hpow (k : Nat) : 2 ^ (8 * k) = 256 ^ k := Nat.pow_mul 2 8 k
  have hlt : v.toNat < 256 ^ n := hpow n ▸ v.isLt
  simp only [leBytes, List.foldr_map, BitVec.extractLsb'_toNat, Nat.shiftRight_eq_div_pow, hpow]
  exact (foldr_base256_digits n v.toNat).trans (Nat.mod_eq_of_lt hlt)

theorem foldr_leBytes_ofNat {n v : Nat} (h : v < 2 ^ (8 * n)) :
    (leBytes n (BitVec.ofNat (8 * n) v)).foldr (fun b acc => b.toNat + 256 * acc) 0 = v := by
  rw [foldr_leBytes, BitVec.toNat_ofNat, Nat.mod_eq_of_lt h]

/-- Settles O48: every width at once, then each typed value as the bytes of its width. -/
theorem typedValuesAreLittleEndian : Obligations.TypedValuesAreLittleEndian := by
  refine ⟨fun n v => ⟨leBytes_length n v, foldr_leBytes n v⟩, ?_,
    fun _ v => ⟨leBytes_length 4 v, foldr_leBytes 4 v⟩, fun _ v => ⟨leBytes_length 8 v, foldr_leBytes 8 v⟩⟩
  intro c v p n hp hwf
  simp only [List.mem_cons, Prod.mk.injEq, List.not_mem_nil, or_false] at hp
  obtain ⟨rfl, rfl⟩ | ⟨rfl, rfl⟩ | ⟨rfl, rfl⟩ | ⟨rfl, rfl⟩ := hp
  · exact ⟨rfl, foldr_leBytes_ofNat (n := 1) (of_decide_eq_true hwf)⟩
  · exact ⟨rfl, foldr_leBytes_ofNat (n := 2) (of_decide_eq_true hwf)⟩
  · exact ⟨rfl, foldr_leBytes_ofNat (n := 4) (of_decide_eq_true hwf)⟩
  · exact ⟨rfl, foldr_leBytes_ofNat (n := 8) (of_decide_eq_true hwf)⟩

/-! ## Two's complement (R183) -/

theorem fitsSigned_iff (w : Nat) (v : Int) :
    fitsSigned w v = true ↔ -(2 ^ (w - 1)) ≤ v ∧ v < 2 ^ (w - 1) := by simp [fitsSigned]

/-- The bit pattern of a signed value in range: the value itself, or `2 ^ w` above it when it is negative. -/
theorem toNat_ofInt_of_fitsSigned {w : Nat} (hw : 0 < w) {v : Int} (h : fitsSigned w v = true) :
    ((BitVec.ofInt w v).toNat : Int) = if v < 0 then v + 2 ^ w else v := by
  obtain ⟨hlo, hhi⟩ := (fitsSigned_iff w v).mp h
  have hpow : (2 : Int) ^ w = 2 * 2 ^ (w - 1) := by rw [← pow_succ', Nat.sub_add_cancel hw]
  have hpos : (0 : Int) < 2 ^ w := by positivity
  have hmod : ((BitVec.ofInt w v).toNat : Int) = v % 2 ^ w := by
    rw [BitVec.toNat_ofInt, Int.toNat_of_nonneg (Int.emod_nonneg _ (by positivity)), Nat.cast_pow, Nat.cast_ofNat]
  rw [hmod]
  split
  · rw [← Int.add_emod_right, Int.emod_eq_of_lt] <;> omega
  · rw [Int.emod_eq_of_lt] <;> omega

theorem foldr_leBytes_ofInt {n : Nat} (hn : 0 < n) {v : Int} (h : fitsSigned (8 * n) v = true) :
    (((leBytes n (BitVec.ofInt (8 * n) v)).foldr (fun b acc => b.toNat + 256 * acc) 0 : Nat) : Int) =
      if v < 0 then v + 2 ^ (8 * n) else v := by
  rw [foldr_leBytes, toNat_ofInt_of_fitsSigned (by omega) h]

/-- Settles O49: each operand is sent as the bytes of its bit pattern. -/
theorem signedValuesAreTwosComplement : Obligations.SignedValuesAreTwosComplement := by
  intro c v p w hp hwf
  simp only [List.mem_cons, Prod.mk.injEq, List.not_mem_nil, or_false] at hp
  obtain ⟨rfl, rfl⟩ | ⟨rfl, rfl⟩ | ⟨rfl, rfl⟩ | ⟨rfl, rfl⟩ := hp
  · exact ⟨rfl, foldr_leBytes_ofInt (n := 1) (by decide) hwf⟩
  · exact ⟨rfl, foldr_leBytes_ofInt (n := 2) (by decide) hwf⟩
  · exact ⟨rfl, foldr_leBytes_ofInt (n := 4) (by decide) hwf⟩
  · exact ⟨rfl, foldr_leBytes_ofInt (n := 8) (by decide) hwf⟩

/-! ## Expansions (R180, R181) -/

theorem Pseudo.expand_of_ne_digestHex (c : Cfg) {p : Pseudo} (h : p ≠ .digestHex) :
    p.expand c = ingest (p.bytes c) := by
  cases p with
  | digestHex => exact absurd rfl h
  | _ => rfl

/-- Settles O53: the byte sequences by definition, the expansion by cases on the pseudo-instruction. -/
theorem plainValuesAreTheirOwnBytes : Obligations.PlainValuesAreTheirOwnBytes := fun c =>
  ⟨fun _ => ⟨rfl, rfl⟩, rfl, rfl, fun _ => Pseudo.expand_of_ne_digestHex c, rfl⟩

/-- Settles O51: each expansion is the `ABSORB.B` commands of its bytes, and these join as the bytes do. -/
theorem typedSequenceIsItsFlatBytes : Obligations.TypedSequenceIsItsFlatBytes := by
  intro c ps hps
  calc ps.flatMap (Pseudo.expand c)
      = ps.flatMap fun p => ingest (p.bytes c) :=
        List.flatMap_congr fun p hp => Pseudo.expand_of_ne_digestHex c (hps p hp)
    _ = ingest (ps.flatMap (Pseudo.bytes c)) := List.map_flatMap.symm

theorem ingest_cons (d : Byte) (b : List Byte) : ingest (d :: b) = .absorbB d :: ingest b := rfl

/-- A second fault of the same kind finds the fault record set (R30). -/
theorem Engine.raise_raise (k : FaultKind) (e : Engine) : (e.raise k).1.raise k = e.raise k := by
  simp [Engine.raise_eq]

/-- `ABSORB.B` commands while `FIN = 1`: the first one's fault, answered to each of them (R141, R203). -/
theorem Engine.run_ingest_fin (c : Cfg) (b : List Byte) {e : Engine} (hfin : e.fin = true) :
    e.run c (ingest b) =
      (if b = [] then e else (e.raise .useAfterFinalize).1,
        List.replicate b.length (e.raise .useAfterFinalize).2) := by
  induction b generalizing e with
  | nil => rfl
  | cons d b ih =>
    have hcmd : e.command c (.absorbB d) = e.raise .useAfterFinalize := Engine.absorbCmd_fin c d hfin
    have hfin' : (e.raise .useAfterFinalize).1.fin = true := by simpa [Engine.raise_eq] using hfin
    rw [ingest_cons, Engine.run, hcmd, ih hfin', Engine.raise_raise, ite_self, if_neg (List.cons_ne_nil d b)]
    rfl

/-- Settles O50: the expansion is a run of `ABSORB.B` with `FIN = 1`. -/
theorem expansionAfterDigestOnlyFaults : Obligations.ExpansionAfterDigestOnlyFaults := by
  intro c p e hp hfin
  rw [Pseudo.expand_of_ne_digestHex c hp, Engine.run_ingest_fin c _ hfin]
  refine ⟨fun r hr => ?_, List.length_replicate, by rw [Engine.raise_eq]; rfl⟩
  rw [List.eq_of_mem_replicate hr]
  rfl

/-! ## The hexadecimal view of the digest (R187, R188) -/

theorem hexValue_hexChar (v : BitVec 4) : hexValue (hexChar v) = some v := by
  revert v
  decide

theorem hexChar_range (v : BitVec 4) :
    ('0' ≤ hexChar v ∧ hexChar v ≤ '9') ∨ ('a' ≤ hexChar v ∧ hexChar v ≤ 'f') := by
  revert v
  decide

theorem append_nibbles (d : Byte) : d.extractLsb' 4 4 ++ d.extractLsb' 0 4 = d :=
  BitVec.extractLsb'_append_extractLsb' (w := 4)

theorem unhex_hexString (data : List Byte) : unhex (hexString data) = some data := by
  induction data with
  | nil => rfl
  | cons d data ih =>
    change unhex (hexChar (d.extractLsb' 4 4) :: hexChar (d.extractLsb' 0 4) :: hexString data) = _
    simp only [unhex, hexValue_hexChar, ih, append_nibbles]

theorem hexString_length (data : List Byte) : (hexString data).length = 2 * data.length := by
  simp [hexString, hexByte, List.length_flatMap, Nat.mul_comm]

theorem hexString_range (data : List Byte) :
    ∀ ch ∈ hexString data, ('0' ≤ ch ∧ ch ≤ '9') ∨ ('a' ≤ ch ∧ ch ≤ 'f') := by
  intro ch hch
  obtain ⟨d, -, hch⟩ := List.mem_flatMap.mp hch
  simp only [hexByte, List.mem_cons, List.not_mem_nil, or_false] at hch
  obtain rfl | rfl := hch <;> exact hexChar_range _

/-- Settles O52: the three claims hold of the hex string of any bytes, and the data of `DIGEST` is 64 bytes. -/
theorem hexOfTheDigestRoundTrips : Obligations.HexOfTheDigestRoundTrips := by
  intro c e d
  have hlen : d.length = 64 := blockBytes_length _
  exact ⟨unhex_hexString d, by rw [hexString_length, hlen], hexString_range d⟩

end Sys2Proof.Machine
end

section
/-! The statements of 60_exceptions.md: which command faults (R200 to R202, R208), what a fault does (R203), and the
idle engine (R213). -/

namespace Sys2Proof.Machine

/-! ## The fault record and the commands (R203) -/

/-- The engine with another fault record. -/
def Engine.withFaultRecord (err : Bool) (errcode : BitVec 2) (e : Engine) : Engine :=
  { e with err := err, errcode := errcode }

/-- An engine that is another one but for the fault record has that record as its own. -/
theorem Engine.eq_withFaultRecord_own {e f : Engine} {b : Bool} {code : BitVec 2} (h : f = e.withFaultRecord b code) :
    f = e.withFaultRecord f.err f.errcode := by
  subst h
  rfl

theorem Engine.recordFault_eq_withFaultRecord (k : FaultKind) (e : Engine) :
    e.recordFault k = e.withFaultRecord true (if e.err then e.errcode else k.code) :=
  Engine.recordFault_eq k e

theorem Engine.recordFault_withFaultRecord (k : FaultKind) (b : Bool) (code : BitVec 2) (e : Engine) :
    (e.withFaultRecord b code).recordFault k =
      (e.recordFault k).withFaultRecord true (if b then code else k.code) := by
  simp only [Engine.recordFault_eq, Engine.withFaultRecord]

/-- `ABSORB.B` carries the fault record along (R141). -/
theorem Engine.absorb_withFaultRecord (c : Cfg) (d : Byte) (b : Bool) (code : BitVec 2) (e : Engine) :
    (e.withFaultRecord b code).absorb c d = (e.absorb c d).withFaultRecord b code := by
  obtain hroom | hfull := e.bcnt_room_or_full
  · rw [Engine.absorb_room c d hroom, Engine.absorb_room (e := e.withFaultRecord b code) c d hroom]
    rfl
  · rw [Engine.absorb_full c d hfull, Engine.absorb_full (e := e.withFaultRecord b code) c d hfull]
    rfl

/-- `FINALIZE` carries the fault record along (R160 to R163). -/
theorem Engine.finalize_withFaultRecord (c : Cfg) (b : Bool) (code : BitVec 2) (e : Engine) :
    (e.withFaultRecord b code).finalize c = (e.finalize c).withFaultRecord b code := rfl

/-- No command reads the fault record but to keep it: with another record a command leaves the same engine but for the
record, and answers the same fault code and data. -/
theorem Engine.command_withFaultRecord (c : Cfg) (i : Instr) (b : Bool) (code : BitVec 2) (e : Engine) :
    let r := (e.withFaultRecord b code).command c i
    r.1 = (e.command c i).1.withFaultRecord r.1.err r.1.errcode ∧
    r.2.fault = (e.command c i).2.fault ∧ r.2.data = (e.command c i).2.data := by
  cases i with
  | init => exact ⟨rfl, rfl, rfl⟩
  | absorbB d =>
    simp only [Engine.command]
    cases hfin : e.fin with
    | false =>
      rw [Engine.absorbCmd_open c d hfin, Engine.absorbCmd_open (e := e.withFaultRecord b code) c d hfin]
      exact ⟨Engine.eq_withFaultRecord_own (Engine.absorb_withFaultRecord c d b code e), rfl, rfl⟩
    | true =>
      rw [Engine.absorbCmd_fin c d hfin, Engine.absorbCmd_fin (e := e.withFaultRecord b code) c d hfin]
      exact ⟨Engine.eq_withFaultRecord_own (Engine.recordFault_withFaultRecord _ b code e), rfl, rfl⟩
  | digest =>
    simp only [Engine.command]
    cases hfin : e.fin with
    | false =>
      rw [Engine.digestCmd_open c hfin, Engine.digestCmd_open (e := e.withFaultRecord b code) c hfin,
        Engine.finalize_withFaultRecord]
      exact ⟨rfl, rfl, rfl⟩
    | true =>
      rw [Engine.digestCmd_fin c hfin, Engine.digestCmd_fin (e := e.withFaultRecord b code) c hfin]
      exact ⟨rfl, rfl, rfl⟩
  | reserved => exact ⟨Engine.eq_withFaultRecord_own (Engine.recordFault_withFaultRecord _ b code e), rfl, rfl⟩

/-- A command that answers a fault code has taken that fault, and nothing else (R203). -/
theorem Engine.command_eq_raise {c : Cfg} {i : Instr} {e : Engine} (h : (e.command c i).2.fault ≠ 0) :
    ∃ k, e.command c i = e.raise k := by
  cases i with
  | init => exact absurd (e.command_init_fault c) h
  | absorbB d =>
    cases hfin : e.fin with
    | false => exact absurd ((e.command_absorbB_fault c d).trans (by simp [hfin])) h
    | true => exact ⟨.useAfterFinalize, Engine.absorbCmd_fin c d hfin⟩
  | digest => exact absurd (e.command_digest_fault c) h
  | reserved => exact ⟨.illegalCommand, rfl⟩

/-- Settles O18: the command is a fault, which changes the fault record only, and the next command does the same with
any fault record. -/
theorem faultingCommandOnlyRecordsTheFault : Obligations.FaultingCommandOnlyRecordsTheFault := by
  intro c i e hfault
  obtain ⟨k, hraise⟩ := Engine.command_eq_raise hfault
  rw [hraise]
  refine ⟨Engine.recordFault_eq k e, rfl, rfl, rfl, fun j => ?_⟩
  have hnext := Engine.command_withFaultRecord c j true (if e.err then e.errcode else k.code) e
  rw [← Engine.recordFault_eq_withFaultRecord] at hnext
  obtain ⟨hengine, hcode, hdata⟩ := hnext
  obtain ⟨hresponse, -⟩ := (e.recordFault k).command_response c j
  refine ⟨hengine, hcode, hdata, fun hj => ?_⟩
  obtain ⟨herr, -⟩ := onlyInitClearsTheFaultRecord c j (e.recordFault k) (Engine.recordFault_err k e) hj
  exact hresponse.trans herr

/-! ## Which command faults (R200 to R202, R208) -/

/-- Settles O14: a word of the row decodes to the reserved command, which takes the fault `IllegalCommand`. -/
theorem reservedWordRaisesIllegalCommand : Obligations.ReservedWordRaisesIllegalCommand := by
  intro s w hop
  rw [decode_of_opField_three hop]
  exact congrArg (fun r => Host.Outcome.next (s.complete r)) (Engine.raise_eq .illegalCommand s.engine)

/-- Settles O19: the fault code of each command, by its own lemma. -/
theorem faultCodeByOpcodeAndFin : Obligations.FaultCodeByOpcodeAndFin := fun c e =>
  ⟨e.command_init_fault c, e.command_digest_fault c, e.command_reserved_fault c,
    fun d => e.command_absorbB_fault c d⟩

/-! ## The idle engine (R213, R242) -/

/-- Settles O7: no word is taken from an empty port. -/
theorem idleStepHoldsTheState : Obligations.IdleStepHoldsTheState := fun _ h => step_nil h

end Sys2Proof.Machine
end

section
/-! The statements of 70_reset_and_hazards.md: a run of the machine (R242), hardware reset (R230), the order of a
session (R232, R233), what `INIT` discards (R237), and what decides the operations of a command (R241). -/

namespace Sys2Proof.Machine

/-! ## The meaning of a run (R242) -/

/-- Settles O9: the run of the port from any engine and any responses given before. -/
theorem runIsTheFoldOfCommands : Obligations.RunIsTheFoldOfCommands := fun s =>
  core_run_port s.port s.engine s.responses

/-- The responses of a run: the one to its first command, then those of the rest of the run. -/
theorem Engine.run_cons_responses (c : Cfg) (i : Instr) (is : List Instr) (e : Engine) :
    (e.run c (i :: is)).2 = (e.command c i).2 :: ((e.command c i).1.run c is).2 := rfl

/-! ## Hardware reset (R230) -/

/-- Settles O36: hardware reset is the construction of `INIT`, which leaves no observable trace of the engine before
it; the reset engine is one so constructed. -/
theorem hardwareResetIsInitWithoutAResponse : Obligations.HardwareResetIsInitWithoutAResponse := by
  intro s
  have hreset := Indistinguishable.construct Config.sk512 s.engine Engine.reset
  rw [Engine.construct_reset] at hreset
  exact ⟨rfl, rfl, rfl, s.engine.phase_construct (by decide), hreset⟩

/-! ## The required order of a session (R232, R233) -/

theorem Engine.command_absorbB_fin (c : Cfg) (d : Byte) (e : Engine) : (e.command c (.absorbB d)).1.fin = e.fin := by
  change (e.absorbCmd c d).1.fin = e.fin
  cases hfin : e.fin with
  | false => rw [Engine.absorbCmd_open c d hfin, Engine.absorb_fin, hfin]
  | true => rw [Engine.absorbCmd_fin c d hfin, Engine.raise, Engine.recordFault_fin, hfin]

theorem Engine.command_digest_fin (c : Cfg) (e : Engine) : (e.command c .digest).1.fin = true := e.digested_fin c

/-- A sequence is in order exactly when its first command takes no fault and the rest is in order for the `FIN` that
command leaves. -/
theorem faultFreeOrder_cons_iff (c : Cfg) (i : Instr) (is : List Instr) (e : Engine) :
    faultFreeOrder e.fin (i :: is) = true ↔
      (e.command c i).2.fault = noFault ∧ faultFreeOrder (e.command c i).1.fin is = true := by
  cases i with
  | init => exact (and_iff_right rfl).symm
  | absorbB d =>
    rw [Engine.command_absorbB_fault, Engine.command_absorbB_fin, faultFreeOrder]
    cases e.fin <;> simp [noFault]
  | digest =>
    rw [Engine.command_digest_fin]
    exact (and_iff_right rfl).symm
  | reserved => simp [faultFreeOrder, noFault]

/-- Settles O26: by induction on the commands, with the `FIN` each one leaves. -/
theorem faultFreeRunsAreTheOrderedOnes : Obligations.FaultFreeRunsAreTheOrderedOnes := by
  intro c is e
  induction is generalizing e with
  | nil => exact iff_of_true (List.forall_mem_nil _) rfl
  | cons i is ih =>
    rw [Engine.run_cons_responses, FaultFree, List.forall_mem_cons, faultFreeOrder_cons_iff c, ← ih]
    rfl

/-! ## `INIT` discards (R237) -/

/-- Engines that no command tells apart answer every sequence of commands alike. -/
theorem Indistinguishable.run_responses (c : Cfg) (is : List Instr) {e f : Engine} (hi : Indistinguishable e f) :
    (e.run c is).2 = (f.run c is).2 := by
  induction is generalizing e f with
  | nil => rfl
  | cons i is ih =>
    obtain ⟨hengines, hresponse⟩ := unspecifiedBytesAreNeverObserved c i e f hi
    rw [Engine.run_cons_responses, Engine.run_cons_responses, hresponse, ih hengines]

/-- Settles O46: `INIT` answers every engine alike and leaves engines that no command tells apart. -/
theorem initForgetsThePast : Obligations.InitForgetsThePast := fun c is e f =>
  congrArg ((e.command c .init).2 :: ·) ((Indistinguishable.construct c e f).run_responses c is)

/-! ## What decides the operations of a command (R241) -/

theorem Engine.control_eq_iff {e f : Engine} : e.control = f.control ↔ e.fin = f.fin ∧ e.bcnt = f.bcnt := Prod.mk_inj

theorem Engine.faultRecord_eq_iff {e f : Engine} :
    e.faultRecord = f.faultRecord ↔ e.err = f.err ∧ e.errcode = f.errcode := Prod.mk_inj

/-- Commands of one opcode are the same, but for the operand of `ABSORB.B` (R71, R72). -/
theorem Instr.opcode_eq_cases {i j : Instr} (h : i.opcode = j.opcode) :
    (i = .init ∧ j = .init) ∨ (∃ d d', i = .absorbB d ∧ j = .absorbB d') ∨ (i = .digest ∧ j = .digest) ∨
    (i = .reserved ∧ j = .reserved) := by
  cases i <;> cases j <;> simp [Instr.opcode] at h ⊢

/-- The position add of a full block (R131, R141). -/
theorem Engine.absorb_t0 (c : Cfg) (d : Byte) (e : Engine) :
    (e.absorb c d).t0 = if e.bcnt.val = 64 then e.t0 + 64 else e.t0 := by
  obtain hroom | hfull := e.bcnt_room_or_full
  · rw [Engine.absorb_room c d hroom, if_neg (by omega), Engine.storeByte_t0]
  · rw [Engine.absorb_full c d hfull, if_pos hfull]
    rfl

/-- FIRST is cleared with a full block (R135, R141). -/
theorem Engine.absorb_t1 (c : Cfg) (d : Byte) (e : Engine) :
    (e.absorb c d).t1 = if e.bcnt.val = 64 then clearFirst c e.t1 else e.t1 := by
  obtain hroom | hfull := e.bcnt_room_or_full
  · rw [Engine.absorb_room c d hroom, if_neg (by omega), Engine.storeByte_t1]
  · rw [Engine.absorb_full c d hfull, if_pos hfull]
    rfl

/-- What two commands leave and answer, `r` of the engine `e` and `q` of the engine `f`, agrees in all that R241 speaks
of: `FIN` and `BCNT`, the fault code and the number of data bytes; and in the fault record, `T0` and `T1` where `e` and
`f` agreed in it. -/
def AgreeInControl (e f : Engine) (r q : Engine × Response) : Prop :=
  r.1.control = q.1.control ∧ r.2.fault = q.2.fault ∧ r.2.data.length = q.2.data.length ∧
  (e.faultRecord = f.faultRecord →
    r.1.faultRecord = q.1.faultRecord ∧ r.2.err = q.2.err ∧ r.2.errcode = q.2.errcode) ∧
  (e.t0 = f.t0 → r.1.t0 = q.1.t0) ∧ (e.t1 = f.t1 → r.1.t1 = q.1.t1)

theorem AgreeInControl.initCmd (c : Cfg) (e f : Engine) : AgreeInControl e f (e.initCmd c) (f.initCmd c) :=
  ⟨rfl, rfl, rfl, fun _ => ⟨rfl, rfl, rfl⟩, fun _ => rfl, fun _ => rfl⟩

section
variable {e f : Engine} (h : e.control = f.control)
include h

/-- A fault leaves `FIN`, `BCNT` and `T` as they were (R203). -/
theorem AgreeInControl.raise (k : FaultKind) : AgreeInControl e f (e.raise k) (f.raise k) := by
  refine ⟨?_, rfl, rfl, fun hrecord => ?_, fun ht0 => ?_, fun ht1 => ?_⟩
  · simpa [Engine.raise, Engine.control] using h
  · obtain ⟨herr, herrcode⟩ := Engine.faultRecord_eq_iff.mp hrecord
    simp [Engine.raise_eq, Engine.faultRecord, herr, herrcode]
  · simpa [Engine.raise] using ht0
  · simpa [Engine.raise] using ht1

/-- `BCNT` decides whether `ABSORB.B` processes a block, and where it stores its byte. -/
theorem AgreeInControl.absorbCmd (c : Cfg) (d d' : Byte) : AgreeInControl e f (e.absorbCmd c d) (f.absorbCmd c d') := by
  obtain ⟨hfin, hbcnt⟩ := Engine.control_eq_iff.mp h
  cases hopen : e.fin with
  | true =>
    rw [Engine.absorbCmd_fin c d hopen, Engine.absorbCmd_fin c d' (hfin ▸ hopen)]
    exact .raise h _
  | false =>
    rw [Engine.absorbCmd_open c d hopen, Engine.absorbCmd_open c d' (hfin ▸ hopen)]
    refine ⟨Engine.control_eq_iff.mpr ⟨?_, Fin.ext ?_⟩, rfl, rfl, fun hrecord => ?_, fun ht0 => ?_, fun ht1 => ?_⟩
    · simp [hfin]
    · simp [Engine.storeAddr, hbcnt]
    · simpa [Engine.faultRecord] using hrecord
    · simp only [Engine.absorb_t0, hbcnt, ht0]
    · simp only [Engine.absorb_t1, hbcnt, ht1]

/-- `FIN` decides whether `DIGEST` finalises, which leaves a fixed tweak and keeps `BCNT` (R160 to R163). -/
theorem AgreeInControl.digestCmd (c : Cfg) : AgreeInControl e f (e.digestCmd c) (f.digestCmd c) := by
  obtain ⟨hfin, hbcnt⟩ := Engine.control_eq_iff.mp h
  cases hopen : e.fin with
  | true =>
    rw [Engine.digestCmd_fin c hopen, Engine.digestCmd_fin c (hfin ▸ hopen)]
    exact ⟨h, rfl, by simp, fun hrecord => ⟨hrecord, Engine.faultRecord_eq_iff.mp hrecord⟩, id, id⟩
  | false =>
    rw [Engine.digestCmd_open c hopen, Engine.digestCmd_open c (hfin ▸ hopen)]
    refine ⟨?_, by simp, by simp, fun hrecord => ?_, fun _ => by simp, fun _ => by simp⟩
    · simpa [Engine.control] using hbcnt
    · simpa [Engine.faultRecord] using hrecord

end

/-- Settles O47: opcode by opcode, each command agrees in control. -/
theorem controlIgnoresTheData : Obligations.ControlIgnoresTheData := by
  intro c i j e f hop hcontrol
  obtain ⟨rfl, rfl⟩ | ⟨d, d', rfl, rfl⟩ | ⟨rfl, rfl⟩ | ⟨rfl, rfl⟩ := Instr.opcode_eq_cases hop
  · exact AgreeInControl.initCmd c e f
  · exact AgreeInControl.absorbCmd hcontrol c d d'
  · exact AgreeInControl.digestCmd hcontrol c
  · exact AgreeInControl.raise hcontrol .illegalCommand

end Sys2Proof.Machine
end
